-- ==== Sys2Proof/Word.lean ====
section
/-! DEFINITION. The widths of AIS-ABX as types (spec 00_scope.md R5, the six fixed widths). -/

namespace Sys2Proof

/-- A command word, and the value field of a response: 32 bits (R50, R55). -/
abbrev Word := BitVec 32

/-- One 6-bit unit of the bit buffer (R12). -/
abbrev Unit6 := BitVec 6

/-- The 8-bit character code that PUSH takes (R52, R56). -/
abbrev CharCode := BitVec 8

/-- The LEN field of XTR: 6 bits, the length itself (R53, R57). -/
abbrev LenField := BitVec 6

/-- The OFF field of XTR: 16 bits, in stream bits (R53, R57). -/
abbrev OffField := BitVec 16

end Sys2Proof
end

