-- ==== Sys2Proof/Config.lean ====
section
/-! DEFINITION. The implementation parameters of AIS-ABX (spec 00_scope.md R5): what one chip fixes and
no command changes. They are arguments of the model, held in State as plain data (log entry 1). -/

namespace Sys2Proof

/-- The three implementation parameters of R5. The constraint the rule puts on them is `Params.wf`
(WellFormed.lean). -/
structure Params where
  /-- `CAP`, the capacity of the bit buffer in units; OPEN, 28 to 10922. -/
  cap : Nat
  /-- `CH40`, the character code that decodes to 40. -/
  ch40 : CharCode
  /-- `FIXF_RESET`, the reset value of the control bit FIXF. -/
  fixfReset : Bool
  deriving DecidableEq, Repr

/-- The parameters of this hardware. `CH40 = 0x27` and `FIXF_RESET = 0` are R5's own values.
DESIGN CHOICE (log entry 1), unsafe: the spec leaves `CAP` open; 64 is the default it suggests for tests
(92_eei_decisions.md, OPEN parameters), and no statement rests on it. -/
def Params.hardware : Params := { cap := 64, ch40 := 0x27, fixfReset := false }

end Sys2Proof
end

