-- ==== Sys2Proof/Syntax.lean ====
section
/-! DEFINITION. The six commands of AIS-ABX (spec 30_encoding.md R59), one constructor for each row of
spec/opcode_table.json, and their mnemonics. -/

namespace Sys2Proof

/-- The commands. Each operand has exactly the type of its field, so every term can be encoded. -/
inductive Instr where
  /-- `CLR`: start a message (R110). -/
  | clr
  /-- `PUSH char`: decode one character and append its unit (R70). -/
  | push (char : CharCode)
  /-- `XTR off, len`: read `len` stream bits from stream bit `off` (R90). The operands stand in the order
  of the encoding, `LEN` above `OFF` (R53). -/
  | xtr (len : LenField) (off : OffField)
  /-- `XMT`: read the message type, the first six stream bits (R98). -/
  | xmt
  /-- `RDST`: read the status word (R112). -/
  | rdst
  /-- `WCTL f`: write the table mode (R114). -/
  | wctl (f : Bool)
  deriving DecidableEq, Repr

/-- The mnemonic of a command, as the opcode table spells it. -/
def Instr.mnemonic : Instr → String
  | .clr => "CLR"
  | .push _ => "PUSH"
  | .xtr _ _ => "XTR"
  | .xmt => "XMT"
  | .rdst => "RDST"
  | .wctl _ => "WCTL"

end Sys2Proof
end

