-- ==== Sys2Proof/WellFormed.lean ====
section
/-! DEFINITION. The two checks the spec makes on data that come from outside: the constraint on the
parameters (spec 00_scope.md R5) and the legality of a command word by the opcode map (30_encoding.md
R59 to R62). A term of `Instr` needs no check: an operand's type is exactly its field, and every value
of CHAR, LEN, OFF and F is a legal encoding (R53, R62). -/

namespace Sys2Proof

/-- R5: 28 <= CAP <= 10922, and CH40 lies outside 0x30..0x57 and 0x61..0x77. -/
def Params.wf (p : Params) : Bool :=
  decide (28 ≤ p.cap) && decide (p.cap ≤ 10922)
    && !(decide (0x30 ≤ p.ch40.toNat) && decide (p.ch40.toNat ≤ 0x57))
    && !(decide (0x61 ≤ p.ch40.toNat) && decide (p.ch40.toNat ≤ 0x77))

/-- One row of the opcode map of R59. -/
structure OpcodeRow where
  mnemonic : String
  mask : Word
  pattern : Word
  deriving DecidableEq, Repr

/-- R59: the word is the row's command. -/
def OpcodeRow.names (r : OpcodeRow) (w : Word) : Bool := decide (w &&& r.mask = r.pattern)

/-- The opcode map of R59, row by row. -/
def opcodeTable : List OpcodeRow :=
  [ ⟨"CLR", 0xFFFFFFFF, 0x10000000⟩,
    ⟨"PUSH", 0xFFFFFF00, 0x20000000⟩,
    ⟨"XTR", 0xF03F0000, 0x30000000⟩,
    ⟨"XMT", 0xFFFFFFFF, 0x40000000⟩,
    ⟨"RDST", 0xFFFFFFFF, 0x50000000⟩,
    ⟨"WCTL", 0xFFFFFFFE, 0x60000000⟩ ]

/-- A command word is well-formed (legal) if a row of the opcode map names it (R59, R62). -/
def Word.wf (w : Word) : Bool := opcodeTable.any fun r => r.names w

end Sys2Proof
end

