-- ==== Sys2Proof/Decode.lean ====
section
/-! DEFINITION. Decoding and encoding of command words (spec 30_encoding.md R50 to R63). The decoder is
total on all 32-bit words and rejects a word by naming what is wrong with it. -/

namespace Sys2Proof

/-- Why a word names no command. -/
inductive IllegalReason where
  /-- OP is 0x0 or 0x7 to 0xF (R60). -/
  | reservedOpcode
  /-- OP names a command and a bit its format reserves is 1 (R61). -/
  | reservedBits
  deriving DecidableEq, Repr

/-- The slice of `n` bits of `w` whose lowest bit is bit `lo` (R6: `w[lo+n-1 : lo]`). -/
def slice (w : Word) (lo n : Nat) : BitVec n := w.extractLsb' lo n

/-- A command, if the bits its format reserves are 0 (R61). -/
def ifZero (reservedZero : Bool) (i : Instr) : Except IllegalReason Instr :=
  if reservedZero then .ok i else .error .reservedBits

/-- R63: `Decode(W)`. -/
def decode (w : Word) : Except IllegalReason Instr :=
  match (slice w 28 4).toNat with
  | 1 => ifZero (slice w 0 28 == 0) .clr
  | 2 => ifZero (slice w 8 20 == 0) (.push (slice w 0 8))
  | 3 => ifZero (slice w 16 6 == 0) (.xtr (slice w 22 6) (slice w 0 16))
  | 4 => ifZero (slice w 0 28 == 0) .xmt
  | 5 => ifZero (slice w 0 28 == 0) .rdst
  | 6 => ifZero (slice w 1 27 == 0) (.wctl (w.getLsbD 0))
  | _ => .error .reservedOpcode

/-- R51 to R54, R63: `Encode`, each word written as its format lays out its fields, most significant
first. -/
def encode : Instr → Word
  | .clr => 0x1#4 ++ 0#28
  | .push char => 0x2#4 ++ 0#20 ++ char
  | .xtr len off => 0x3#4 ++ len ++ 0#6 ++ off
  | .xmt => 0x4#4 ++ 0#28
  | .rdst => 0x5#4 ++ 0#28
  | .wctl f => 0x6#4 ++ 0#27 ++ BitVec.ofBool f

/-- The command word whose bits are the low `nbits` bits of `w`, bits above them 0; none if it does not
fit one 32-bit word (R50: there is one length). A command word crosses the port whole, so it has no
byte order (log entry 9). -/
def tableWord (nbits w : Nat) : Option Word :=
  if w % 2 ^ nbits < 2 ^ 32 then some (BitVec.ofNat 32 (w % 2 ^ nbits)) else none

/-- The command the decoder reads from an instruction whose bits are `w`, numbered as
spec/opcode_table.json numbers them. -/
def decodeTableWord (nbits w : Nat) : Option Instr :=
  match tableWord nbits w with
  | none => none
  | some word =>
    match decode word with
    | .ok i => some i
    | .error _ => none

end Sys2Proof
end

