-- ==== Sys2Proof/Machine/State.lean ====
section
/-! DEFINITION. The state of one AIS-ABX instance (spec 10_state.md), the two ends of its command port,
the reasons a step of the model can stop, and the state after reset. -/

namespace Sys2Proof.Machine

/-- The bit buffer `U` (R12): the cells that hold a value, as (cell index, unit) pairs with indexes
strictly rising and below `CAP` (`Memory.wf`). An unlisted cell holds no value (R13; log entry 6). -/
abbrev Memory := List (Nat × Unit6)

/-- The block's faults (60_exceptions.md R140). They are architectural results (R161): a command that
raises one still answers a next state. -/
inductive BlockFault where
  | invalidCharacter
  | outOfBounds
  | invalidLength
  | bufferOverflow
  | illegalCommand
  | ctlLocked
  | messageAborted
  deriving DecidableEq, Repr

/-- The response to one command (30_encoding.md R55): `F`, `CODE` and `VAL`. -/
structure Response where
  f : Bool
  code : BitVec 3
  val : Word
  deriving DecidableEq, Repr

/-- What the host can present (R39, R173): a command word, or the external reset. -/
inductive HostEvent where
  | command (w : Word)
  | reset
  deriving DecidableEq, Repr

/-- The reasons a step of the MODEL stops. Neither is a fault of the block: no state that meets the
invariant of 10_state.md R19 reaches one. -/
inductive Fault where
  /-- Raised by `readField` (XTR, XMT) when a stream bit below 6 x CNT lies in a cell that holds no value.
  Safe: R13 says that no command can read such a cell, so the model stops and gives no value. -/
  | cellWithoutValue
  /-- Raised by `append` (PUSH) when CNT is above CAP, so that cell CNT does not exist (R12, R14). Safe: the
  model stops and stores nothing. -/
  | noSuchCell
  deriving DecidableEq, Repr

/-- The reasons a command has no meaning in the model. -/
inductive Refusal where
  /-- Raised by an arm of `exec` whose command has no meaning yet. Safe. No arm raises it now. -/
  | notModelled (mnemonic : String)
  deriving DecidableEq, Repr

/-- The whole state of one instance (10_state.md, the record at its head), its parameters (00_scope.md
R5) and its command port. -/
structure State where
  /-- `U`, the bit buffer (R12, R13). -/
  u : Memory
  /-- `CNT`, the unit count (R14). -/
  cnt : BitVec 16
  /-- `ERR`, the first fault since CLR or reset, 0 for none (R15). -/
  err : BitVec 3
  /-- `FSEEN`, a successful PUSH of 0x66 happened in this message (R16). -/
  fseen : Bool
  /-- `FIXF`, the table mode: 0 reference, 1 corrected (R17). -/
  fixf : Bool
  /-- The parameters of the chip (R5); no step changes them (log entry 1). -/
  params : Params
  /-- What the host has presented and the block has not yet taken, oldest first (R39; log entry 2). -/
  inputs : List HostEvent
  /-- The responses returned so far, oldest first (R39, R55; log entry 3). -/
  responses : List Response
  deriving DecidableEq, Repr

/-- What a meaning answers. -/
abbrev Result := Host.Outcome State Fault Refusal

/-- The reset state of R171 for a chip with the given parameters, its port empty. -/
def State.resetWith (p : Params) : State :=
  { u := [], cnt := 0, err := 0, fseen := false, fixf := p.fixfReset,
    params := p, inputs := [], responses := [] }

/-- The machine right after reset (R171). -/
def State.reset : State := State.resetWith Params.hardware

end Sys2Proof.Machine
end

