-- ==== Sys2Proof/Machine/Ops.lean ====
section
/-! DEFINITION. The shared operations: the bit buffer as memory (spec 20_memory.md), responses
(30_encoding.md R55), taking a fault and leaving the aborted state (60_exceptions.md), reset
(70_reset_and_hazards.md). -/

namespace Sys2Proof.Machine

/-! The cells of the buffer. -/

/-- `U[a]`: the value of cell `a`, none if it holds no value (R12, R13). -/
def Memory.read : Memory → Nat → Option Unit6
  | [], _ => none
  | (b, v) :: m, a => if b = a then some v else Memory.read m a

/-- `U[a] <- v`, keeping the indexes rising (R12). -/
def Memory.write : Memory → Nat → Unit6 → Memory
  | [], a, v => [(a, v)]
  | (b, x) :: m, a, v =>
    if a < b then (a, v) :: (b, x) :: m
    else if a = b then (a, v) :: m
    else (b, x) :: Memory.write m a v

/-- The canonical form: indexes strictly rising, and every one a cell of the chip (R12). -/
def Memory.wf (cap : Nat) (m : Memory) : Bool :=
  decide (m.Pairwise fun c d => c.1 < d.1) && m.all fun c => decide (c.1 < cap)

/-! Stream bits and fields. -/

/-- `BufBit(k)` (R30): word bit 5 - (k mod 6) of unit k div 6. -/
def bufBit (m : Memory) (k : Nat) : Option Bool :=
  match Memory.read m (k / 6) with
  | none => none
  | some v => some (v.getLsbD (5 - k % 6))

/-- `MemRead(k, n)` (R31): the `n` stream bits from `k`, the first read most significant. None if one of
them lies in a cell without a value. -/
def memRead (m : Memory) (k : Nat) : Nat → Option Nat
  | 0 => some 0
  | n + 1 =>
    match memRead m k n, bufBit m (k + n) with
    | some v, some b => some (2 * v + b.toNat)
    | _, _ => none

/-! Responses. -/

/-- `OK(v)` (R55). -/
def okResponse (v : Word) : Response := { f := false, code := 0, val := v }

/-- The numbers of the faults (R140). -/
def BlockFault.code : BlockFault → BitVec 3
  | .invalidCharacter => 1
  | .outOfBounds => 2
  | .invalidLength => 3
  | .bufferOverflow => 4
  | .illegalCommand => 5
  | .ctlLocked => 6
  | .messageAborted => 7

/-- `FAULT(c)` (R55): a faulting command returns no data. -/
def faultResponse (c : BlockFault) : Response := { f := true, code := c.code, val := 0 }

/-- `RSP` (R55): the response as one 36-bit value, F in bit 35, CODE in 34:32, VAL in 31:0. -/
def Response.packed (r : Response) : BitVec 36 := BitVec.ofBool r.f ++ r.code ++ r.val

/-- Return one response to the host. -/
def respond (r : Response) (s : State) : State := { s with responses := s.responses ++ [r] }

/-! Taking a fault and leaving the aborted state. -/

/-- `raise c` (R153): ERR takes the code if it was 0 and the code is not 7, the response is FAULT(c), and
nothing else changes. Control goes nowhere: there is no handler and no vector. -/
def raise (c : BlockFault) (s : State) : State :=
  respond (faultResponse c)
    { s with err := if c ≠ .messageAborted ∧ s.err = 0 then c.code else s.err }

/-- The return (R110, R156): the buffer is emptied and ERR and FSEEN are cleared; FIXF stays. -/
def clearMessage (s : State) : State := { s with u := [], cnt := 0, err := 0, fseen := false }

/-- The external reset (R170, R171): every piece of state at its reset value. The parameters are the
chip's, and what the host has queued or already received is the host's (log entry 8). -/
def takeReset (s : State) : State := { clearMessage s with fixf := s.params.fixfReset }

/-- R154: in the aborted state a message-scoped command does nothing but respond MessageAborted. -/
def unlessAborted (s : State) (command : State → Result) : Result :=
  if s.err ≠ 0 then .next (raise .messageAborted s) else command s

/-! The one write and the one read of the buffer. -/

/-- The cell that the next PUSH writes (R11, R32). -/
def appendAddress (s : State) : Nat := s.cnt.toNat

/-- `Append(v)` (R32): `U[CNT] <- v`, then `CNT <- CNT + 1`. A cell at or above CAP does not exist
(R12; log entry 7). -/
def append (v : Unit6) (s : State) : Result :=
  if appendAddress s < s.params.cap then
    .next { s with u := Memory.write s.u (appendAddress s) v, cnt := s.cnt + 1 }
  else .fault .noSuchCell

/-- R37: the field of `n` bits at `k` lies inside the address map, computed without wrap-around (R57). -/
def inMap (s : State) (k n : Nat) : Bool := decide (k + n ≤ 6 * s.cnt.toNat)

/-- The bounds check and the read shared by XTR and XMT (R93, R94): the field right-aligned in 32
bits. -/
def readField (off len : Nat) (s : State) : Result :=
  if inMap s off len then
    match memRead s.u off len with
    | some v => .next (respond (okResponse (BitVec.ofNat 32 v)) s)
    | none => .fault .cellWithoutValue
  else .next (raise .outOfBounds s)

end Sys2Proof.Machine
end

