-- ==== Sys2Proof/Machine/Operands.lean ====
section
/-! DEFINITION. The operands of the commands (spec 30_encoding.md R56 to R58) and the alphabet through
which PUSH reads its one (40_armor_decoder.md R71). -/

namespace Sys2Proof.Machine

/-- `OFF`, in stream bits, not scaled (R57). -/
def offValue (off : OffField) : Nat := off.toNat

/-- `LEN`, in bits, not scaled and not biased (R57). -/
def lenValue (len : LenField) : Nat := len.toNat

/-- R92: a length that XTR serves. -/
def lenServed (n : Nat) : Bool := decide (1 ≤ n) && decide (n ≤ 32)

/-- The operands XMT behaves as if it had (R57, R98). -/
def xmtOff : Nat := 0

/-- See `xmtOff`. -/
def xmtLen : Nat := 6

/-- The character code that FSEEN watches (R16). -/
def codeOfF : CharCode := 0x66

/-- `Alpha(c, fixf)` (R71). -/
def alpha (p : Params) (c : CharCode) (fixf : Bool) : Option Unit6 :=
  if 0x30 ≤ c.toNat ∧ c.toNat ≤ 0x57 then some (BitVec.ofNat 6 (c.toNat - 0x30))
  else if c = p.ch40 then some 40
  else if c = codeOfF ∧ fixf = false then some 45
  else if 0x61 ≤ c.toNat ∧ c.toNat ≤ 0x77 then some (BitVec.ofNat 6 (c.toNat - 0x61 + 41))
  else none

end Sys2Proof.Machine
end

