-- ==== Sys2Proof/Machine/Flags.lean ====
section
/-! DEFINITION. The status flag FSEEN and the STATUS word (spec 10_state.md R16, R18). -/

namespace Sys2Proof.Machine

/-- R16, R70: a successful PUSH of 0x66 sets FSEEN; no other changes it. -/
def noteF (c : CharCode) (s : State) : State :=
  { s with fseen := if c = codeOfF then true else s.fseen }

/-- `STATUS` (R18): CNT + 65536 x ERR + 524288 x FSEEN + 1048576 x FIXF. -/
def statusWord (s : State) : Word :=
  BitVec.ofNat 32
    (s.cnt.toNat + 65536 * s.err.toNat + 524288 * s.fseen.toNat + 1048576 * s.fixf.toNat)

end Sys2Proof.Machine
end

