-- ==== Sys2Proof/Machine/Armor.lean ====
section
/-! DEFINITION. The armor decoder: PUSH (spec 40_armor_decoder.md). -/

namespace Sys2Proof.Machine

/-- What a successful PUSH does after the append: FSEEN (R16), then the response (R70). -/
def finishPush (c : CharCode) (v : Unit6) (s : State) : State :=
  respond (okResponse (v.setWidth 32)) (noteF c s)

/-- `PUSH c` (R70), its checks in the order of R76. -/
def execPush (char : CharCode) (s : State) : Result :=
  unlessAborted s fun s =>
    match alpha s.params char s.fixf with
    | none => .next (raise .invalidCharacter s)
    | some v =>
      if s.cnt.toNat = s.params.cap then .next (raise .bufferOverflow s)
      else
        match append v s with
        | .next t => .next (finishPush char v t)
        | .fault r => .fault r
        | .refused r => .refused r

end Sys2Proof.Machine
end

