-- ==== Sys2Proof/Machine/Control.lean ====
section
/-! DEFINITION. The control commands CLR, RDST and WCTL (spec 42_control_commands.md), and what a word
that names no command does (60_exceptions.md R146). -/

namespace Sys2Proof.Machine

/-- `CLR` (R110). -/
def execClr (s : State) : Result := .next (respond (okResponse 0) (clearMessage s))

/-- `RDST` (R112). -/
def execRdst (s : State) : Result := .next (respond (okResponse (statusWord s)) s)

/-- `WCTL f` (R114). -/
def execWctl (f : Bool) (s : State) : Result :=
  unlessAborted s fun s =>
    if s.cnt ≠ 0 then .next (raise .ctlLocked s)
    else .next (respond (okResponse 0) { s with fixf := f })

/-- An illegal word (R146), in every state. -/
def execIllegal (s : State) : Result := .next (raise .illegalCommand s)

end Sys2Proof.Machine
end

