-- ==== Sys2Proof/Machine/Extractor.lean ====
section
/-! DEFINITION. The bit-field extractor: XTR and XMT (spec 41_bit_field_extractor.md). -/

namespace Sys2Proof.Machine

/-- `XTR off, len` (R90), its checks in the order of R99. -/
def execXtr (len : LenField) (off : OffField) (s : State) : Result :=
  unlessAborted s fun s =>
    if lenServed (lenValue len) then readField (offValue off) (lenValue len) s
    else .next (raise .invalidLength s)

/-- `XMT` (R98). -/
def execXmt (s : State) : Result := unlessAborted s fun s => readField xmtOff xmtLen s

end Sys2Proof.Machine
end

