-- ==== Sys2Proof/Machine/Dispatch.lean ====
section
/-! DEFINITION. The dispatch of a command to its meaning, one arm for each constructor of `Instr`. -/

namespace Sys2Proof.Machine

def exec (i : Instr) (s : State) : Host.Outcome State Fault Refusal :=
  match i with
  | .clr => Sys2Proof.Machine.execClr s
  | .push char => Sys2Proof.Machine.execPush char s
  | .xtr len off => Sys2Proof.Machine.execXtr len off s
  | .xmt => Sys2Proof.Machine.execXmt s
  | .rdst => Sys2Proof.Machine.execRdst s
  | .wctl f => Sys2Proof.Machine.execWctl f s

end Sys2Proof.Machine
end

