-- ==== Sys2Proof/Machine/Step.lean ====
section
/-! DEFINITION. One step of the block: it takes the oldest thing the host has presented and performs it
completely (spec 20_memory.md R35, R39; 70_reset_and_hazards.md R173). -/

namespace Sys2Proof.Machine

/-- Perform one command word (R63, R146). -/
def perform (w : Word) (s : State) : Host.Outcome State Fault Refusal :=
  match decode w with
  | .ok i => exec i s
  | .error _ => execIllegal s

/-- One step: a command, a reset, or nothing when the host has presented nothing (log entry 4). -/
def step (s : State) : Host.Outcome State Fault Refusal :=
  match s.inputs with
  | [] => .next s
  | .command w :: rest => perform w { s with inputs := rest }
  | .reset :: rest => .next (takeReset { s with inputs := rest })

/-- The state in which the host has presented the command word with these bits, ahead of anything else:
the very next step performs it (log entry 5). A number that is no 32-bit word cannot be presented. -/
def State.withFetchWord (s : State) (nbits w : Nat) : State :=
  match tableWord nbits w with
  | some word => { s with inputs := .command word :: s.inputs }
  | none => s

end Sys2Proof.Machine
end

