-- ==== Sys2Proof/Machine/Fields.lean ====
section
/-! DEFINITION. Host data: the field descriptor table of AIS types 1 to 3 and the commands a host forms
from it (spec 43_field_descriptors.md R120, R121, R123; 30_encoding.md R65, R66). The block holds none
of it. -/

namespace Sys2Proof.Machine

/-- A Field Descriptor (R8, R120): the name, the `XFLD` operand, the start-bit offset, the length. -/
structure FieldDescriptor where
  name : String
  operand : String
  offset : Nat
  length : Nat
  deriving DecidableEq, Repr

/-- The fifteen descriptors of R120, in table order. -/
def fieldTable : List FieldDescriptor :=
  [ ⟨"Message Type", "MessageType", 0, 6⟩,
    ⟨"Repeat Indicator", "RepeatIndicator", 6, 2⟩,
    ⟨"MMSI", "MMSI", 8, 30⟩,
    ⟨"Navigation Status", "NavigationStatus", 38, 4⟩,
    ⟨"Rate Of Turn", "RateOfTurn", 42, 8⟩,
    ⟨"Speed Over Ground", "SpeedOverGround", 50, 10⟩,
    ⟨"Position Accuracy", "PositionAccuracy", 60, 1⟩,
    ⟨"Longitude", "Longitude", 61, 28⟩,
    ⟨"Latitude", "Latitude", 89, 27⟩,
    ⟨"Course Over Ground", "CourseOverGround", 116, 12⟩,
    ⟨"True Heading", "TrueHeading", 128, 9⟩,
    ⟨"Time Stamp", "TimeStamp", 137, 6⟩,
    ⟨"Maneuver Indicator", "ManeuverIndicator", 143, 2⟩,
    ⟨"RAIM Flag", "RAIMFlag", 148, 1⟩,
    ⟨"Radio Status", "RadioStatus", 149, 19⟩ ]

/-- The sixteen (offset, length) pairs of R121: the fifteen fields and the gap at bits 145 to 147. -/
def tilingPairs : List (Nat × Nat) :=
  [(0, 6), (6, 2), (8, 30), (38, 4), (42, 8), (50, 10), (60, 1), (61, 28), (89, 27), (116, 12),
    (128, 9), (137, 6), (143, 2), (145, 3), (148, 1), (149, 19)]

/-- The `XTR` command of an offset and a length in the order of the source's contract (R64). -/
def xtrCommand (off len : Nat) : Instr := .xtr (BitVec.ofNat 6 len) (BitVec.ofNat 16 off)

/-- `XFLD` of a descriptor (R66). -/
def FieldDescriptor.command (d : FieldDescriptor) : Instr := xtrCommand d.offset d.length

/-- R120: the smallest CNT for which the read succeeds. -/
def FieldDescriptor.minCnt (d : FieldDescriptor) : Nat := (d.offset + d.length + 5) / 6

/-- `XFLD name` (R66). -/
def xfld (operand : String) : Option Instr :=
  (fieldTable.find? fun d => d.operand = operand).map FieldDescriptor.command

/-- `DECODE "s"` (R65): CLR, then one PUSH for each character. -/
def decodeCommands (s : List CharCode) : List Instr := .clr :: s.map .push

/-- What the host presents for a list of commands. -/
def present (cs : List Instr) : List HostEvent := cs.map fun i => .command (encode i)

/-- The characters that a list of commands pushes, in order (R78). -/
def pushedCodes : List Instr → List CharCode
  | [] => []
  | .push c :: is => c :: pushedCodes is
  | _ :: is => pushedCodes is

/-- A command that R78 allows within a payload: PUSH, XTR, XMT or RDST. -/
def isWithinPayload : Instr → Bool
  | .push _ => true
  | .xtr _ _ => true
  | .xmt => true
  | .rdst => true
  | .clr => false
  | .wctl _ => false

/-- The commands of the client's decode pass up to the type filter (R123). -/
def passHead (payload : List CharCode) : List Instr := decodeCommands payload ++ [.xmt]

/-- The rest of the pass: `XFLD` for each of the fifteen fields in table order (R123). -/
def passFields : List Instr := fieldTable.map FieldDescriptor.command

/-- The host's decision after `passHead` (R123, 70_reset_and_hazards.md R178 (b)): no response was a
fault, and the message type is 1, 2 or 3. -/
def passGoesOn (rs : List Response) : Bool :=
  rs.all (fun r => !r.f) &&
    match rs.getLast? with
    | some r => r.val == 1 || r.val == 2 || r.val == 3
    | none => false

end Sys2Proof.Machine
end

