-- ==== Sys2Proof/Machine/Assembler.lean ====
section
/-! DEFINITION. The host's assembler: the syntax of spec 30_encoding.md R64 with the pseudo-instructions
of R65 and R66. Text is a list of characters, one list a line. What R64 leaves open (blanks, adjacent
tokens, operands too wide for their field) is log entry 10. -/

namespace Sys2Proof.Machine

/-- A token of an assembler line. -/
inductive AsmToken where
  | word (cs : List Char)
  | char (c : Char)
  | text (cs : List Char)
  | comma
  deriving DecidableEq, Repr

/-- Where the lexer stands; a list of characters is held newest first. -/
inductive LexMode where
  | plain
  | inWord (acc : List Char)
  | inText (acc : List Char)
  | quote
  | closing (c : Char)
  deriving DecidableEq, Repr

/-- The tokens of a line (R64): `;` outside quotes starts a comment.
DESIGN CHOICE (log entry 10), unsafe: R64 and R65 do not say how a double quote is written inside the
string of `DECODE`; here the string ends at the first double quote and there is no escape, so no such
string can be written. -/
def lex : List Char → LexMode → Option (List AsmToken)
  | [], .plain => some []
  | [], .inWord acc => some [.word acc.reverse]
  | [], _ => none
  | c :: cs, .plain =>
    match c with
    | ';' => some []
    | ',' => (lex cs .plain).map (.comma :: ·)
    | ' ' => lex cs .plain
    | '"' => lex cs (.inText [])
    | '\'' => lex cs .quote
    | c => lex cs (.inWord [c])
  | c :: cs, .inWord acc =>
    match c with
    | ';' => some [.word acc.reverse]
    | ',' => (lex cs .plain).map (.word acc.reverse :: .comma :: ·)
    | ' ' => (lex cs .plain).map (.word acc.reverse :: ·)
    | '"' => none
    | '\'' => none
    | c => lex cs (.inWord (c :: acc))
  | c :: cs, .inText acc =>
    if c = '"' then (lex cs .plain).map (.text acc.reverse :: ·) else lex cs (.inText (c :: acc))
  | c :: cs, .quote => if c = '\'' then none else lex cs (.closing c)
  | c :: cs, .closing d => if c = '\'' then (lex cs .plain).map (.char d :: ·) else none

/-- The value of a digit in the given base. -/
def digit (base : Nat) (c : Char) : Option Nat :=
  let n := c.toNat
  let v :=
    if '0'.toNat ≤ n ∧ n ≤ '9'.toNat then n - '0'.toNat
    else if 'A'.toNat ≤ n ∧ n ≤ 'F'.toNat then n - 'A'.toNat + 10
    else if 'a'.toNat ≤ n ∧ n ≤ 'f'.toNat then n - 'a'.toNat + 10
    else base
  if v < base then some v else none

/-- The value of a string of digits, most significant first. -/
def digits (base : Nat) : List Char → Nat → Option Nat
  | [], acc => some acc
  | c :: cs, acc =>
    match digit base c with
    | none => none
    | some d => digits base cs (base * acc + d)

/-- A number, decimal or `0x` hexadecimal (R64). -/
def number : List Char → Option Nat
  | [] => none
  | '0' :: 'x' :: c :: cs => digits 16 (c :: cs) 0
  | c :: cs => digits 10 (c :: cs) 0

/-- A number that fits its field. -/
def numberBelow (bound : Nat) (cs : List Char) : Option Nat :=
  (number cs).filter fun n => decide (n < bound)

/-- The 8-bit code of a character (R71: the codes are those of 7-bit ASCII; log entry 10).
DESIGN CHOICE (log entry 10), unsafe: the spec gives codes for 7-bit ASCII only; a character U+0080 to
U+00FF takes its code point, and a character above has no 8-bit code. -/
def charCode (c : Char) : Option CharCode :=
  if c.toNat < 256 then some (BitVec.ofNat 8 c.toNat) else none

/-- The 8-bit codes of a string, none if one character has no 8-bit code. -/
def charCodes : List Char → Option (List CharCode)
  | [] => some []
  | c :: cs =>
    match charCode c, charCodes cs with
    | some x, some xs => some (x :: xs)
    | _, _ => none

/-- The commands of one line: none for a blank or comment line, several for `DECODE` (R64 to R66). -/
def assembleTokens : List AsmToken → Option (List Instr)
  | [] => some []
  | [.word ['C', 'L', 'R']] => some [.clr]
  | [.word ['X', 'M', 'T']] => some [.xmt]
  | [.word ['R', 'D', 'S', 'T']] => some [.rdst]
  | [.word ['P', 'U', 'S', 'H'], .char c] => (charCode c).map fun x => [.push x]
  | [.word ['P', 'U', 'S', 'H'], .word n] =>
    (numberBelow 256 n).map fun x => [.push (BitVec.ofNat 8 x)]
  | [.word ['X', 'T', 'R'], .word off, .comma, .word len] =>
    match numberBelow 65536 off, numberBelow 64 len with
    | some o, some l => some [xtrCommand o l]
    | _, _ => none
  | [.word ['W', 'C', 'T', 'L'], .word n] => (numberBelow 2 n).map fun x => [.wctl (x == 1)]
  | [.word ['D', 'E', 'C', 'O', 'D', 'E'], .text cs] => (charCodes cs).map decodeCommands
  | [.word ['X', 'F', 'L', 'D'], .word name] => (xfld (String.ofList name)).map fun i => [i]
  | _ => none

/-- Assemble one line. -/
def assembleLine (line : List Char) : Option (List Instr) :=
  match lex line .plain with
  | none => none
  | some ts => assembleTokens ts

/-- Assemble a listing, one command or pseudo-instruction a line. -/
def assemble : List (List Char) → Option (List Instr)
  | [] => some []
  | l :: ls =>
    match assembleLine l, assemble ls with
    | some xs, some ys => some (xs ++ ys)
    | _, _ => none

end Sys2Proof.Machine
end

