-- ==== Sys2Proof/Machine/Forms.lean ====
section
/-! DEFINITION. What the spec defines about the block but the block does not compute this way: the read
as shift logic (spec 41_bit_field_extractor.md R96, R97) and the armoring inverse (40_armor_decoder.md
R77). No command uses them; the statements compare the commands with them. -/

namespace Sys2Proof.Machine

/-- `U[a] ∥ U[a+1] ∥ ... ` over `n` units, `U[a]` most significant. None if one of the cells holds no
value. -/
def unitsValue (m : Memory) (a : Nat) : Nat → Option Nat
  | 0 => some 0
  | n + 1 =>
    match unitsValue m a n, Memory.read m (a + n) with
    | some x, some v => some (64 * x + v.toNat)
    | _, _ => none

/-- `S`, the whole stream of a buffer of `cnt` units (R30, R96). -/
def streamValue (m : Memory) (cnt : Nat) : Option Nat := unitsValue m 0 cnt

/-- R96: `(S >> (6*CNT - off - len)) mod 2^len`. -/
def streamShiftRead (m : Memory) (cnt off len : Nat) : Option Nat :=
  (streamValue m cnt).map fun x => (x >>> (6 * cnt - off - len)) % 2 ^ len

/-- The number of units that a field of `len` bits at `off` touches (R33, R97). -/
def unitsTouched (off len : Nat) : Nat := (off + len - 1) / 6 - off / 6 + 1

/-- The dynamic shift amount of the window form (R97). -/
def windowShift (off len : Nat) : Nat := 6 * unitsTouched off len - off % 6 - len

/-- R97: select the units touched, shift right, and mask to `len` bits. -/
def windowRead (m : Memory) (off len : Nat) : Option Nat :=
  (unitsValue m (off / 6) (unitsTouched off len)).map fun x =>
    (x >>> windowShift off len) % 2 ^ len

/-- R41: read contiguous fields of these lengths from stream bit `k` on, and concatenate the results in
offset order. -/
def readTiling (m : Memory) : Nat → List Nat → Option Nat
  | _, [] => some 0
  | k, n :: ns =>
    match memRead m k n, readTiling m (k + n) ns with
    | some v, some x => some (v * 2 ^ ns.sum + x)
    | _, _ => none

/-- The table of R71, transcribed: code, reference value, corrected value. PUSH uses `alpha`, the rule's
formula; a statement compares the two. -/
def alphabetRows : List (Nat × Nat × Nat) :=
  [(0x27, 40, 40), (0x30, 0, 0), (0x31, 1, 1), (0x32, 2, 2), (0x33, 3, 3), (0x34, 4, 4),
    (0x35, 5, 5), (0x36, 6, 6), (0x37, 7, 7), (0x38, 8, 8), (0x39, 9, 9), (0x3A, 10, 10),
    (0x3B, 11, 11), (0x3C, 12, 12), (0x3D, 13, 13), (0x3E, 14, 14)] ++
  [(0x3F, 15, 15), (0x40, 16, 16), (0x41, 17, 17), (0x42, 18, 18), (0x43, 19, 19), (0x44, 20, 20),
    (0x45, 21, 21), (0x46, 22, 22), (0x47, 23, 23), (0x48, 24, 24), (0x49, 25, 25), (0x4A, 26, 26),
    (0x4B, 27, 27), (0x4C, 28, 28), (0x4D, 29, 29), (0x4E, 30, 30)] ++
  [(0x4F, 31, 31), (0x50, 32, 32), (0x51, 33, 33), (0x52, 34, 34), (0x53, 35, 35), (0x54, 36, 36),
    (0x55, 37, 37), (0x56, 38, 38), (0x57, 39, 39), (0x61, 41, 41), (0x62, 42, 42), (0x63, 43, 43),
    (0x64, 44, 44), (0x65, 45, 45), (0x66, 45, 46), (0x67, 47, 47)] ++
  [(0x68, 48, 48), (0x69, 49, 49), (0x6A, 50, 50), (0x6B, 51, 51), (0x6C, 52, 52), (0x6D, 53, 53),
    (0x6E, 54, 54), (0x6F, 55, 55), (0x70, 56, 56), (0x71, 57, 57), (0x72, 58, 58), (0x73, 59, 59),
    (0x74, 60, 60), (0x75, 61, 61), (0x76, 62, 62), (0x77, 63, 63)]

/-- `Armor(v, fixf)` (R77): none only for 46 under the reference table. -/
def armor (p : Params) (v : Unit6) (fixf : Bool) : Option CharCode :=
  if v.toNat ≤ 39 then some (BitVec.ofNat 8 (0x30 + v.toNat))
  else if v.toNat = 40 then some p.ch40
  else if v.toNat = 46 ∧ fixf = false then none
  else some (BitVec.ofNat 8 (0x61 + (v.toNat - 41)))

end Sys2Proof.Machine
end

