-- ==== Sys2Proof/Machine/Instances.lean ====
section
/-! DEFINITION. Several instances (spec 60_exceptions.md R159; 20_memory.md R44 (b)): a model of k
instances is the product of k independent copies of the single-instance model. Which instance moves
next is an argument, since the spec orders nothing between instances (log entry 11). -/

namespace Sys2Proof.Machine

/-- Instance `k` of the system makes one step; the others stand still. A system without an instance `k`
does nothing. -/
def stepInstance (k : Nat) (system : List State) : Host.Outcome (List State) Fault Refusal :=
  match system[k]? with
  | none => .next system
  | some s =>
    match step s with
    | .next t => .next (system.set k t)
    | .fault r => .fault r
    | .refused r => .refused r

end Sys2Proof.Machine
end

