-- ==== Sys2Proof/Safety.lean ====
section
/-! DEFINITION. The words in which claims are made: the invariant of spec 10_state.md R19 (c), what it
is to respond and to take a fault, said field by field and apart from the operations that do it, and
runs. A run is safe if it only ever answers next states; a decode pass is good if every response had
F = 0 (60_exceptions.md R161). -/

namespace Sys2Proof.Machine

/-- The invariants that R19 (c) gives for every reachable state, with the constraint of R5 on the
parameters. -/
structure State.Inv (s : State) : Prop where
  /-- R5. -/
  params_wf : s.params.wf = true
  /-- 0 <= CNT <= CAP. -/
  cnt_le_cap : s.cnt.toNat ≤ s.params.cap
  /-- The buffer is in its canonical form and inside the chip. -/
  memory_wf : Memory.wf s.params.cap s.u = true
  /-- Cells 0 to CNT-1 each hold a value, and cells CNT and above hold none. -/
  cells : ∀ a, (Memory.read s.u a).isSome = decide (a < s.cnt.toNat)
  /-- 0 <= ERR <= 6. -/
  err_le : s.err.toNat ≤ 6
  /-- If FIXF = 0 then no cell holds 46. -/
  no46 : s.fixf = false → ∀ a, Memory.read s.u a ≠ some 46
  /-- FSEEN = 1 implies CNT >= 1. -/
  fseen_cnt : s.fseen = true → 1 ≤ s.cnt.toNat

/-- R17, R43: every unit of the buffer is the decode of some character under the table selected now. -/
def State.UnitsAreDecodes (s : State) : Prop :=
  ∀ a v, Memory.read s.u a = some v → ∃ c, alpha s.params c s.fixf = some v

/-- The five pieces of the block's own state (10_state.md, the record at its head) and the parameters are
the same. -/
def State.SameBlock (s t : State) : Prop :=
  t.u = s.u ∧ t.cnt = s.cnt ∧ t.err = s.err ∧ t.fseen = s.fseen ∧ t.fixf = s.fixf ∧
    t.params = s.params

/-- From `s` to `t` one response was returned and nothing more was taken from the host. -/
def State.Returns (s t : State) (r : Response) : Prop :=
  t.responses = s.responses ++ [r] ∧ t.inputs = s.inputs

/-- `t` is `s` after a successful command that changes no state and returns `v` (R36). -/
def State.ReadOk (s t : State) (v : Nat) : Prop :=
  s.SameBlock t ∧ s.Returns t ⟨false, 0, BitVec.ofNat 32 v⟩

/-- `t` is `s` after the fault with this code, as R153 says: the response is F = 1, CODE = the code,
VAL = 0, ERR takes the code only if it was 0 and the code is not 7, and nothing else changes. -/
def State.TakesFault (s t : State) (code : BitVec 3) : Prop :=
  s.Returns t ⟨true, code, 0⟩ ∧
    t.err = (if code ≠ 7 ∧ s.err = 0 then code else s.err) ∧
    t.u = s.u ∧ t.cnt = s.cnt ∧ t.fseen = s.fseen ∧ t.fixf = s.fixf ∧ t.params = s.params

/-- The last response of a state. -/
def State.lastResponse (s : State) : Option Response := s.responses.getLast?

/-- `k` steps, stopping at the first stop of the model. -/
def run : Nat → State → Result
  | 0, s => .next s
  | k + 1, s =>
    match step s with
    | .next t => run k t
    | .fault r => .fault r
    | .refused r => .refused r

/-- `s` with these and nothing else presented by the host. -/
def State.given (s : State) (events : List HostEvent) : State := { s with inputs := events }

/-- R161: the run answers a next state and every response returned since `n` responses had F = 0. -/
def goodPass (n : Nat) : Result → Bool
  | .next t => (t.responses.drop n).all fun r => !r.f
  | _ => false

end Sys2Proof.Machine
end

