-- ==== Sys2Proof/Certificates/Slice0/Obligations.lean ====
section
/-! DEFINITION. The statements about AIS-ABX for the provers. A statement says the effect of a command
field by field (`State.TakesFault`, `State.Returns`, `State.SameBlock` of Safety.lean) and with the
spec's numbers, so that it does not repeat the operation it is about. -/

open Sys2Proof Sys2Proof.Machine

/-! ## Command words -/

/-- 96_test_vectors_push_xtr.md section 3.2, and for 0x37800008 its section 3.1 and the worked example of
R63: words and what they decode to. -/
def Obligations.SampleWordsDecodeToTheirCommands : Prop :=
  decode 0x10000000 = .ok .clr ∧ decode 0x18000000 = .error .reservedBits ∧
  decode 0x20000031 = .ok (.push 0x31) ∧ decode 0x20000131 = .error .reservedBits ∧
  decode 0x200000FF = .ok (.push 0xFF) ∧
  decode 0x37800008 = .ok (.xtr 30 8) ∧ decode 0x3FC0FFFF = .ok (.xtr 63 65535) ∧
  decode 0x31A00000 = .error .reservedBits ∧ decode 0x31810000 = .error .reservedBits ∧
  decode 0x40000000 = .ok .xmt ∧ decode 0x40000006 = .error .reservedBits ∧
  decode 0x50000000 = .ok .rdst ∧ decode 0x58000000 = .error .reservedBits ∧
  decode 0x60000000 = .ok (.wctl false) ∧ decode 0x60000001 = .ok (.wctl true) ∧
  decode 0x60000002 = .error .reservedBits ∧
  decode 0x00000000 = .error .reservedOpcode ∧ decode 0xFFFFFFFF = .error .reservedOpcode

/-- R63, whole: `Decode` reads OP, the operand fields and the reserved bits from the places it names
(here as quotients and remainders of the word read as a number), `Encode` gives the numbers it names,
and each undoes the other. -/
def Obligations.DecodeAndEncodeAreInverse : Prop :=
  (∀ w : Word,
    (decode w = .ok .clr ↔ w.toNat / 2 ^ 28 = 1 ∧ w.toNat % 2 ^ 28 = 0) ∧
    (∀ c, decode w = .ok (.push c) ↔
      w.toNat / 2 ^ 28 = 2 ∧ w.toNat / 2 ^ 8 % 2 ^ 20 = 0 ∧ c.toNat = w.toNat % 2 ^ 8) ∧
    (∀ len off, decode w = .ok (.xtr len off) ↔
      w.toNat / 2 ^ 28 = 3 ∧ w.toNat / 2 ^ 16 % 2 ^ 6 = 0 ∧
        len.toNat = w.toNat / 2 ^ 22 % 2 ^ 6 ∧ off.toNat = w.toNat % 2 ^ 16) ∧
    (decode w = .ok .xmt ↔ w.toNat / 2 ^ 28 = 4 ∧ w.toNat % 2 ^ 28 = 0) ∧
    (decode w = .ok .rdst ↔ w.toNat / 2 ^ 28 = 5 ∧ w.toNat % 2 ^ 28 = 0) ∧
    (∀ f, decode w = .ok (.wctl f) ↔
      w.toNat / 2 ^ 28 = 6 ∧ w.toNat / 2 % 2 ^ 27 = 0 ∧ f.toNat = w.toNat % 2)) ∧
  (encode .clr).toNat = 0x10000000 ∧
  (∀ c, (encode (.push c)).toNat = 0x20000000 + c.toNat) ∧
  (∀ len off, (encode (.xtr len off)).toNat = 0x30000000 + len.toNat * 2 ^ 22 + off.toNat) ∧
  (encode .xmt).toNat = 0x40000000 ∧
  (encode .rdst).toNat = 0x50000000 ∧
  (∀ f, (encode (.wctl f)).toNat = 0x60000000 + f.toNat) ∧
  (∀ i, decode (encode i) = .ok i) ∧
  (∀ w i, decode w = .ok i → encode i = w) ∧
  encode (.xtr 30 8) = 0x37800008

/-- R59: a row's (mask, match) pair names exactly the words that decode to the row's command, and no
word is named by two rows. -/
def Obligations.MaskAndMatchNameTheDecodedCommand : Prop :=
  (∀ r ∈ opcodeTable, ∀ w : Word,
    w &&& r.mask = r.pattern ↔ ∃ i, decode w = .ok i ∧ i.mnemonic = r.mnemonic) ∧
  (∀ r ∈ opcodeTable, ∀ r' ∈ opcodeTable, ∀ w : Word,
    w &&& r.mask = r.pattern → w &&& r'.mask = r'.pattern → r = r')

/-- R60, R61, R146: exactly the words with a reserved opcode, and the words with an opcode of a command
and a reserved bit set, are illegal; and in every state, the aborted state included, such a word
responds FAULT(5), latches 5 in ERR if ERR was 0, and changes nothing else. -/
def Obligations.ReservedWordsRaiseIllegalCommand : Prop :=
  ∀ w : Word,
    (decode w = .error .reservedOpcode ↔ w.toNat / 2 ^ 28 = 0 ∨ 7 ≤ w.toNat / 2 ^ 28) ∧
    (decode w = .error .reservedBits ↔
      ((w.toNat / 2 ^ 28 = 1 ∨ w.toNat / 2 ^ 28 = 4 ∨ w.toNat / 2 ^ 28 = 5) ∧
        w.toNat % 2 ^ 28 ≠ 0) ∨
      (w.toNat / 2 ^ 28 = 2 ∧ w.toNat / 2 ^ 8 % 2 ^ 20 ≠ 0) ∨
      (w.toNat / 2 ^ 28 = 3 ∧ w.toNat / 2 ^ 16 % 2 ^ 6 ≠ 0) ∨
      (w.toNat / 2 ^ 28 = 6 ∧ w.toNat / 2 % 2 ^ 27 ≠ 0)) ∧
    ∀ (r : IllegalReason) (s : State) (rest : List HostEvent),
      decode w = .error r → s.inputs = .command w :: rest →
      ∃ t, step s = .next t ∧ State.TakesFault (s.given rest) t 5

/-- R62: the number of legal words, of XTR words, and of XTR words whose length can succeed. -/
def Obligations.LegalWordsAreCounted : Prop :=
  Nat.card { w : Word // ∃ i, decode w = .ok i } = 1 + 256 + 4194304 + 1 + 1 + 2 ∧
  Nat.card { w : Word // ∃ len off, decode w = .ok (.xtr len off) } = 64 * 65536 ∧
  Nat.card { w : Word // ∃ len off, decode w = .ok (.xtr len off) ∧
    1 ≤ len.toNat ∧ len.toNat ≤ 32 } = 32 * 65536

/-- R64 to R66: assembler lines, one of each form with an operand, and the words they give. That the codes
of characters are ASCII is the presumed row of log entry 10 (the spec's own G1); the last clause, that an
operand too wide for its field is refused, is the model's choice (log entry 10). -/
def Obligations.AssemblerLinesGiveTheirWords : Prop :=
  (assembleLine "PUSH '1'".toList).map (List.map encode) = some [0x20000031] ∧
  (assembleLine "PUSH 0x27 ; the apostrophe".toList).map (List.map encode) = some [0x20000027] ∧
  (assembleLine "XTR 8, 30".toList).map (List.map encode) = some [0x37800008] ∧
  (assembleLine "XTR 0xFFFF, 63".toList).map (List.map encode) = some [0x3FC0FFFF] ∧
  (assembleLine "XFLD MMSI".toList).map (List.map encode) = some [0x37800008] ∧
  (assembleLine "WCTL 1".toList).map (List.map encode) = some [0x60000001] ∧
  (assembleLine "DECODE \"15X\"".toList).map (List.map encode) =
    some [0x10000000, 0x20000031, 0x20000035, 0x20000058] ∧
  assembleLine "XTR 0, 64".toList = none

/-! ## One step -/

/-- R35, R39, R63: a step takes the oldest thing the host has presented. A word that decodes to a command
is performed as that command; a state into which a word was put by `withFetchWord` presents it first.
The last clause, that a step with nothing presented changes nothing, is the model's choice (log entry
4). -/
def Obligations.StepPerformsTheDecodedCommand : Prop :=
  (∀ (s : State) (w : Word) (rest : List HostEvent) (i : Instr),
    s.inputs = .command w :: rest → decode w = .ok i → step s = exec i (s.given rest)) ∧
  (∀ (s : State) (i : Instr),
    step (s.withFetchWord 32 (encode i).toNat) = exec i s) ∧
  (∀ s : State, s.inputs = [] → step s = .next s)

/-- R170, R171, R173: the external reset, taken between commands, puts every piece of state at its reset
value in every state. That the chip keeps its parameters, that what the host still has queued stays
queued, and that a reset returns no response and takes back none, is the model's choice (log entry
8). -/
def Obligations.ResetEventPutsEveryPieceAtItsResetValue : Prop :=
  ∀ (s : State) (rest : List HostEvent), s.inputs = .reset :: rest →
    ∃ t, step s = .next t ∧
      (∀ a, Memory.read t.u a = none) ∧ t.u = [] ∧ t.cnt = 0 ∧ t.err = 0 ∧ t.fseen = false ∧
      t.fixf = s.params.fixfReset ∧ t.params = s.params ∧ t.inputs = rest ∧
      t.responses = s.responses

/-- R171: the reset state, for every chip: that the reset event leads to it from every state, and what
each command does in it. -/
def Obligations.ResetStateIsEmptyAndFaultFree : Prop :=
  State.reset = State.resetWith Params.hardware ∧ Params.hardware.fixfReset = false ∧
  (∀ (s : State) (rest : List HostEvent), s.inputs = .reset :: rest →
    ∃ t, step s = .next t ∧ (State.resetWith s.params).SameBlock t) ∧
  ∀ p : Params, p.wf = true →
    ∃ s : State, s = State.resetWith p ∧
      (∀ a, Memory.read s.u a = none) ∧ s.cnt = 0 ∧ s.err = 0 ∧ s.fseen = false ∧
      s.fixf = p.fixfReset ∧
      (∃ t, exec .rdst s = .next t ∧
        s.ReadOk t (if p.fixfReset then 0x00100000 else 0x00000000)) ∧
      (∀ len off, 1 ≤ len.toNat → len.toNat ≤ 32 →
        ∃ t, exec (.xtr len off) s = .next t ∧ s.TakesFault t 2) ∧
      (∃ t, exec .xmt s = .next t ∧ s.TakesFault t 2) ∧
      (∀ f, ∃ t, exec (.wctl f) s = .next t ∧ s.Returns t ⟨false, 0, 0⟩ ∧ t.fixf = f) ∧
      (∀ c v, alpha p c s.fixf = some v →
        ∃ t, exec (.push c) s = .next t ∧ s.Returns t ⟨false, 0, v.setWidth 32⟩ ∧ t.cnt = 1)

/-! ## The control commands -/

/-- R110: CLR, in every state, empties the buffer, clears ERR and FSEEN, keeps FIXF and returns 0; a
second CLR changes nothing more; what is left is the reset state of the chip but for FIXF (and the
command port, which is not the block's state). -/
def Obligations.ClrStartsANewMessage : Prop :=
  encode .clr = 0x10000000 ∧
  ∀ s : State, ∃ t, exec .clr s = .next t ∧
    s.Returns t ⟨false, 0, 0⟩ ∧
    (∀ a, Memory.read t.u a = none) ∧ t.cnt = 0 ∧ t.err = 0 ∧ t.fseen = false ∧
    t.fixf = s.fixf ∧ t.params = s.params ∧
    (∃ t', exec .clr t = .next t' ∧ t.SameBlock t') ∧
    { t with fixf := s.params.fixfReset, inputs := [], responses := [] } = State.resetWith s.params

/-- R18, R112: RDST, in every state, changes nothing and returns the STATUS word: the sum of R112, and
bit by bit the fields of R18. -/
def Obligations.RdstReturnsTheStatusWord : Prop :=
  encode .rdst = 0x50000000 ∧
  ∀ s : State, ∃ (t : State) (v : Word), exec .rdst s = .next t ∧ s.SameBlock t ∧
    s.Returns t ⟨false, 0, v⟩ ∧
    v.toNat = s.cnt.toNat + 65536 * s.err.toNat + 524288 * s.fseen.toNat + 1048576 * s.fixf.toNat ∧
    v.extractLsb' 0 16 = s.cnt ∧ v.extractLsb' 16 3 = s.err ∧ v.getLsbD 19 = s.fseen ∧
    v.getLsbD 20 = s.fixf ∧ v.extractLsb' 21 11 = 0

/-- R114, R115: the three outcomes of WCTL, in the order of its checks. -/
def Obligations.WctlWritesTheModeOnlyBetweenMessages : Prop :=
  ∀ (s : State) (f : Bool),
    (encode (.wctl f)).toNat = 0x60000000 + f.toNat ∧
    (s.err ≠ 0 → ∃ t, exec (.wctl f) s = .next t ∧ s.TakesFault t 7) ∧
    (s.err = 0 → s.cnt ≠ 0 → ∃ t, exec (.wctl f) s = .next t ∧ s.TakesFault t 6) ∧
    (s.err = 0 → s.cnt = 0 → ∃ t, exec (.wctl f) s = .next t ∧ s.Returns t ⟨false, 0, 0⟩ ∧
      t.fixf = f ∧ t.u = s.u ∧ t.cnt = s.cnt ∧ t.err = s.err ∧ t.fseen = s.fseen ∧
      t.params = s.params)

/-- R43: a successful WCTL takes effect for the very next PUSH. -/
def Obligations.WctlTakesEffectAtTheNextPush : Prop :=
  ∀ (s : State) (f : Bool), s.Inv → s.err = 0 → s.cnt = 0 →
    ∃ t, run 2 (s.given (present [.wctl f, .push 0x66])) = .next t ∧
      t.responses = s.responses ++ [⟨false, 0, 0⟩, ⟨false, 0, if f then 46 else 45⟩] ∧
      t.fixf = f ∧ t.cnt = 1 ∧ t.fseen = true ∧ t.err = 0

/-- R116: the table mode affects nothing but the decode of 0x66 (and, by R112, the STATUS word, and what
WCTL itself writes): every other command does the same under either table. -/
def Obligations.TableModeAffectsOnlyTheDecodeOfF : Prop :=
  ∀ (i : Instr) (s t : State) (b : Bool), i ≠ .push 0x66 → i ≠ .rdst → (∀ f, i ≠ .wctl f) →
    exec i s = .next t → exec i { s with fixf := b } = .next { t with fixf := b }

/-- R16: no command's behaviour depends on FSEEN, but for the value RDST returns: from two states that
differ only in FSEEN every other command answers states that differ in nothing else. -/
def Obligations.NoCommandDependsOnFseen : Prop :=
  ∀ (i : Instr) (s t : State) (b : Bool), i ≠ .rdst → exec i s = .next t →
    ∃ t', exec i { s with fseen := b } = .next t' ∧
      { t' with fseen := false } = { t with fseen := false }

/-! ## The armor decoder -/

/-- R71: for the hardware's parameters the alphabet is the table of the rule, all 64 codes under either
table; every other code is outside it. -/
def Obligations.AlphabetIsTheTableOfTheSpec : Prop :=
  ∀ n, n < 256 →
    alpha Params.hardware (BitVec.ofNat 8 n) false =
      ((alphabetRows.find? fun r => r.1 = n).map fun r => BitVec.ofNat 6 r.2.1) ∧
    alpha Params.hardware (BitVec.ofNat 8 n) true =
      ((alphabetRows.find? fun r => r.1 = n).map fun r => BitVec.ofNat 6 r.2.2)

/-- R72: the 192 codes outside the alphabet of this hardware, under either table. -/
def Obligations.CodesOutsideTheAlphabet : Prop :=
  ∀ f : Bool,
    (∀ c : CharCode, alpha Params.hardware c f = none ↔
      c.toNat ≤ 0x26 ∨ (0x28 ≤ c.toNat ∧ c.toNat ≤ 0x2F) ∨
      (0x58 ≤ c.toNat ∧ c.toNat ≤ 0x60) ∨ 0x78 ≤ c.toNat) ∧
    ((List.range 256).countP fun n => alpha Params.hardware (BitVec.ofNat 8 n) f = none) = 192

/-- R73, R19 (c): for every chip, the corrected table is a bijection from the alphabet onto 0..63; under
the reference table 'e' and 'f' both decode to 45, no character decodes to 46, no other two characters
collide, and the tables agree on every other code; only CH40 decodes to 40. -/
def Obligations.TablesCollideOnlyAtEAndF : Prop :=
  ∀ p : Params, p.wf = true →
    (∀ v : Unit6, ∃! c, alpha p c true = some v) ∧
    alpha p 0x65 false = some 45 ∧ alpha p 0x66 false = some 45 ∧ alpha p 0x66 true = some 46 ∧
    (∀ c, alpha p c false ≠ some 46) ∧
    (∀ c c' v, alpha p c false = some v → alpha p c' false = some v →
      c = c' ∨ (c = 0x65 ∧ c' = 0x66) ∨ (c = 0x66 ∧ c' = 0x65)) ∧
    (∀ c, c ≠ 0x66 → alpha p c false = alpha p c true) ∧
    (∀ c f, alpha p c f = some 40 ↔ c = p.ch40)

/-- R77: decoding a character and armoring the value again gives the character back, but for 'f' under
the reference table, which gives 'e'; and under the corrected table the other way round too. -/
def Obligations.ArmoringUndoesDecoding : Prop :=
  ∀ p : Params, p.wf = true →
    (∀ v : Unit6, v.toNat ≤ 39 → ∀ f, armor p v f = some (BitVec.ofNat 8 (0x30 + v.toNat))) ∧
    (∀ f, armor p 40 f = some p.ch40) ∧
    (∀ v : Unit6, 41 ≤ v.toNat → ∀ f, ¬(v = 46 ∧ f = false) →
      armor p v f = some (BitVec.ofNat 8 (0x61 + (v.toNat - 41)))) ∧ armor p 46 false = none ∧
    (∀ c v, c ≠ 0x66 → alpha p c false = some v → armor p v false = some c) ∧
    (∀ v, alpha p 0x66 false = some v → armor p v false = some 0x65) ∧
    (∀ c v, alpha p c true = some v → armor p v true = some c) ∧
    (∀ v, ∃ c, armor p v true = some c ∧ alpha p c true = some v)

/-- R70, R74, R75, with R16 and R32 where PUSH uses them: the four outcomes of PUSH in the order of its
checks. In the aborted state it raises MessageAborted; a code outside the alphabet raises
InvalidCharacter, full buffer or not; an alphabet character into a full buffer raises BufferOverflow;
and an alphabet character into a buffer with room appends its unit. Then cell `appendAddress s` takes
the unit and every other cell keeps its value; the six new stream bits are the unit's, first bit most
significant; CNT moves by one; FSEEN is set by 0x66 only; the response is the unit, zero-extended;
nothing else changes. -/
def Obligations.PushDecodesAndAppends : Prop :=
  ∀ (s : State) (c : CharCode),
    (encode (.push c)).toNat = 0x20000000 + c.toNat ∧
    (s.err ≠ 0 → ∃ t, exec (.push c) s = .next t ∧ s.TakesFault t 7) ∧
    (s.err = 0 → alpha s.params c s.fixf = none →
      ∃ t, exec (.push c) s = .next t ∧ s.TakesFault t 1 ∧ t.err = 1) ∧
    (s.err = 0 → (∃ v, alpha s.params c s.fixf = some v) → s.cnt.toNat = s.params.cap →
      ∃ t, exec (.push c) s = .next t ∧ s.TakesFault t 4 ∧ t.err = 4) ∧
    (∀ v, s.params.wf = true → s.err = 0 → alpha s.params c s.fixf = some v →
      s.cnt.toNat < s.params.cap →
      ∃ t, exec (.push c) s = .next t ∧
        s.Returns t ⟨false, 0, v.setWidth 32⟩ ∧
        appendAddress s = s.cnt.toNat ∧
        (∀ a, Memory.read t.u a = if a = appendAddress s then some v else Memory.read s.u a) ∧
        (∀ j, j < 6 → bufBit t.u (6 * s.cnt.toNat + j) = some (v.getLsbD (5 - j))) ∧
        (∀ k, k < 6 * s.cnt.toNat → bufBit t.u k = bufBit s.u k) ∧
        t.cnt.toNat = s.cnt.toNat + 1 ∧
        t.fseen = (s.fseen || decide (c = 0x66)) ∧
        t.err = s.err ∧ t.fixf = s.fixf ∧ t.params = s.params)

/-- R65: `DECODE "s"` as the host presents it. If every character is in the alphabet and there is room,
the buffer then holds the decode of `s` and nothing else, with no fault; if character `j` is the first
outside the alphabet, its PUSH raises InvalidCharacter, every later one MessageAborted, and the state at
the end is CNT = j, ERR = 1; `DECODE ""` is CLR alone. -/
def Obligations.DecodeFillsTheBufferOrAborts : Prop :=
  decodeCommands [] = [.clr] ∧
  (∀ cs, (decodeCommands cs).length = cs.length + 1) ∧
  (∀ (s : State) (cs : List CharCode), s.params.wf = true → cs.length ≤ s.params.cap →
    (∀ c ∈ cs, (alpha s.params c s.fixf).isSome) →
    ∃ t, run (cs.length + 1) (s.given (present (decodeCommands cs))) = .next t ∧
      t.cnt.toNat = cs.length ∧ (∀ a, Memory.read t.u a = cs[a]?.bind (alpha s.params · s.fixf)) ∧
      t.err = 0 ∧ t.fseen = decide (0x66 ∈ cs) ∧ t.fixf = s.fixf ∧
      t.responses = s.responses ++ ⟨false, 0, 0⟩ ::
        cs.filterMap fun c => (alpha s.params c s.fixf).map fun v => ⟨false, 0, v.setWidth 32⟩) ∧
  (∀ (s : State) (good rest : List CharCode) (bad : CharCode), s.params.wf = true →
    good.length ≤ s.params.cap → (∀ c ∈ good, (alpha s.params c s.fixf).isSome) →
    alpha s.params bad s.fixf = none →
    ∃ t, run (good.length + rest.length + 2)
        (s.given (present (decodeCommands (good ++ bad :: rest)))) = .next t ∧
      t.cnt.toNat = good.length ∧ t.err = 1 ∧
      (∀ a, Memory.read t.u a = good[a]?.bind (alpha s.params · s.fixf)) ∧
      t.responses = s.responses ++ ⟨false, 0, 0⟩ ::
        (good.filterMap fun c => (alpha s.params c s.fixf).map fun v => ⟨false, 0, v.setWidth 32⟩) ++
        ⟨true, 1, 0⟩ :: List.replicate rest.length ⟨true, 7, 0⟩)

/-- R78: from an empty, fault-free buffer, after PUSH commands interleaved with XTR, XMT and RDST that
all succeed, the buffer holds one unit a pushed character, in order. -/
def Obligations.WholePayloadIsDecodedInOrder : Prop :=
  ∀ (s t : State) (cs : List Instr), s.Inv → s.cnt = 0 → s.err = 0 →
    (∀ i ∈ cs, isWithinPayload i = true) →
    run cs.length (s.given (present cs)) = .next t →
    goodPass s.responses.length (.next t) = true →
    t.cnt.toNat = (pushedCodes cs).length ∧
    (∀ a, Memory.read t.u a = (pushedCodes cs)[a]?.bind (alpha s.params · s.fixf)) ∧
    t.fseen = decide (0x66 ∈ pushedCodes cs)

/-! ## The bit-field extractor -/

/-- R90, R92, R93, R94, R31: the four outcomes of XTR in the order of its checks. In the aborted state it
raises MessageAborted; a length of 0 or above 32 raises InvalidLength, whatever the offset; a field
that ends past the buffer, the sum not wrapping, raises OutOfBounds (as does XMT, whose field is
`off = 0`, `len = 6`); and otherwise it returns the field, first stream bit most significant,
right-aligned in 32 bits with zeros above, and changes nothing. -/
def Obligations.XtrReadsTheField : Prop :=
  ∀ (s : State) (len : LenField) (off : OffField),
    (encode (.xtr len off)).toNat = 0x30000000 + len.toNat * 2 ^ 22 + off.toNat ∧
    (s.err ≠ 0 → ∃ t, exec (.xtr len off) s = .next t ∧ s.TakesFault t 7) ∧
    (s.err = 0 → len.toNat = 0 ∨ 33 ≤ len.toNat →
      ∃ t, exec (.xtr len off) s = .next t ∧ s.TakesFault t 3 ∧ t.err = 3) ∧
    (s.err = 0 → 1 ≤ len.toNat → len.toNat ≤ 32 → 6 * s.cnt.toNat < off.toNat + len.toNat →
      ∃ t, exec (.xtr len off) s = .next t ∧ s.TakesFault t 2 ∧ t.err = 2) ∧
    (s.err = 0 → 6 * s.cnt.toNat < 0 + 6 →
      ∃ t, exec .xmt s = .next t ∧ s.TakesFault t 2 ∧ t.err = 2) ∧
    (s.Inv → s.err = 0 → 1 ≤ len.toNat → len.toNat ≤ 32 →
      off.toNat + len.toNat ≤ 6 * s.cnt.toNat →
      ∃ (t : State) (v : Nat) (bit : Nat → Bool), exec (.xtr len off) s = .next t ∧ s.ReadOk t v ∧
        memRead s.u off.toNat len.toNat = some v ∧
        (∀ i, i < len.toNat → bufBit s.u (off.toNat + i) = some (bit i)) ∧
        v = ∑ i ∈ Finset.range len.toNat, (bit i).toNat * 2 ^ (len.toNat - 1 - i) ∧
        v < 2 ^ len.toNat ∧
        (∀ i, i < len.toNat → (BitVec.ofNat 32 v).getLsbD (len.toNat - 1 - i) = bit i) ∧
        (∀ j, len.toNat ≤ j → (BitVec.ofNat 32 v).getLsbD j = false))

/-- R30: a stream bit, where it is defined, is word bit 5 - (k mod 6) of unit k div 6; and bit k of the
stream is bit 6 x CNT - 1 - k of the whole stream read as one number. -/
def Obligations.StreamBitsAreNumberedFromTheMostSignificant : Prop :=
  ∀ s : State, s.Inv → ∀ k, k < 6 * s.cnt.toNat →
    ∃ (v : Unit6) (x : Nat), Memory.read s.u (k / 6) = some v ∧
      bufBit s.u k = some (v.getLsbD (5 - k % 6)) ∧
      streamValue s.u s.cnt.toNat = some x ∧
      x.testBit (6 * s.cnt.toNat - 1 - k) = v.getLsbD (5 - k % 6)

/-- R98: XMT is XTR 0, 6 in every state; in the aborted state it raises MessageAborted, on an empty
buffer OutOfBounds, and otherwise it returns the first unit. -/
def Obligations.XmtReadsTheFirstUnit : Prop :=
  encode .xmt = 0x40000000 ∧
  ∀ s : State,
    exec .xmt s = exec (.xtr 6 0) s ∧
    (s.err ≠ 0 → ∃ t, exec .xmt s = .next t ∧ s.TakesFault t 7) ∧
    (s.err = 0 → s.cnt = 0 → ∃ t, exec .xmt s = .next t ∧ s.TakesFault t 2) ∧
    (s.Inv → s.err = 0 → s.cnt ≠ 0 →
      ∃ (t : State) (v : Unit6), Memory.read s.u 0 = some v ∧ exec .xmt s = .next t ∧
        s.ReadOk t v.toNat)

/-- R96: the bit loop is one shift and one mask of the whole stream, `S` being the sum of the units
weighted by powers of 64. -/
def Obligations.FieldReadIsAShiftOfTheWholeStream : Prop :=
  ∀ (m : Memory) (unit : Nat → Unit6) (cnt off len : Nat),
    (∀ j, j < cnt → Memory.read m j = some (unit j)) → 1 ≤ len → len ≤ 32 → off + len ≤ 6 * cnt →
    streamValue m cnt = some (∑ j ∈ Finset.range cnt, (unit j).toNat * 64 ^ (cnt - 1 - j)) ∧
    ∃ v, memRead m off len = some v ∧ streamShiftRead m cnt off len = some v

/-- R97, R33: the barrel-shifter form: at most seven units, a shift of 0 to 5, and a mask give the same
field; seven units only for 32 bits at offset 5 of a unit. -/
def Obligations.FieldReadIsAWindowShift : Prop :=
  ∀ (m : Memory) (cnt off len : Nat),
    (∀ j, j < cnt → (Memory.read m j).isSome) → 1 ≤ len → len ≤ 32 → off + len ≤ 6 * cnt →
    unitsTouched off len = (off % 6 + len - 1) / 6 + 1 ∧
    1 ≤ unitsTouched off len ∧ unitsTouched off len ≤ 7 ∧
    (unitsTouched off len = 7 ↔ len = 32 ∧ off % 6 = 5) ∧
    off % 6 + len ≤ 6 * unitsTouched off len ∧
    windowShift off len ≤ 5 ∧ windowShift off len = 5 - (off + len - 1) % 6 ∧
    ∃ v, memRead m off len = some v ∧ windowRead m off len = some v

/-- R41: reads compose, a unit-aligned 6-bit read is the unit, and contiguous fields that tile the buffer
concatenate to the whole stream. -/
def Obligations.ReadsCompose : Prop :=
  ∀ (m : Memory) (cnt : Nat), (∀ j, j < cnt → (Memory.read m j).isSome) →
    (∀ k n j, 1 ≤ n → 1 ≤ j → n + j ≤ 32 → k + n + j ≤ 6 * cnt →
      ∃ a b, memRead m k n = some a ∧ memRead m (k + n) j = some b ∧
        memRead m k (n + j) = some (a * 2 ^ j + b)) ∧
    (∀ j v, j < cnt → Memory.read m j = some v → memRead m (6 * j) 6 = some v.toNat) ∧
    (∀ ns : List Nat, ns.sum = 6 * cnt → (∀ n ∈ ns, 1 ≤ n ∧ n ≤ 32) →
      ∃ x, readTiling m 0 ns = some x ∧ streamValue m cnt = some x)

/-- R121: on a 28-unit buffer the sixteen reads of the field table and its gap all succeed, change
nothing, and concatenate to the stream: no bit is lost or read twice. -/
def Obligations.FieldTableReadsReconstructTheStream : Prop :=
  ∀ s : State, s.Inv → s.err = 0 → s.cnt = 28 →
    ∃ (t : State) (vs : List Nat),
      run 16 (s.given (present (tilingPairs.map fun p => xtrCommand p.1 p.2))) = .next t ∧
      s.SameBlock t ∧ vs.length = 16 ∧
      t.responses = s.responses ++ vs.map (fun v => ⟨false, 0, BitVec.ofNat 32 v⟩) ∧
      (∀ q ∈ tilingPairs.zip vs, q.2 < 2 ^ q.1.2) ∧
      streamValue s.u 28 = some ((tilingPairs.zip vs).foldl (fun x q => x * 2 ^ q.1.2 + q.2) 0)

/-- R120, R121: the XTR words of the field table, the smallest CNT for each, its order and its one
gap. -/
def Obligations.FieldTableGivesItsWords : Prop :=
  fieldTable.map (fun d => encode d.command) =
    [0x31800000, 0x30800006, 0x37800008, 0x31000026, 0x3200002A, 0x32800032, 0x3040003C, 0x3700003D,
      0x36C00059, 0x33000074, 0x32400080, 0x31800089, 0x3080008F, 0x30400094, 0x34C00095] ∧
  fieldTable.map FieldDescriptor.minCnt = [1, 2, 7, 7, 9, 10, 11, 15, 20, 22, 23, 24, 25, 25, 28] ∧
  (fieldTable.Pairwise fun d e => d.offset + d.length ≤ e.offset) ∧
  tilingPairs.filter (fun p => p ≠ (145, 3)) = fieldTable.map (fun d => (d.offset, d.length)) ∧
  tilingPairs.foldl (fun k p => if p.1 = k then k + p.2 else 1000) 0 = 168

/-- R122, R179: in a fault-free message `XFLD` of a field succeeds exactly if the buffer holds all its
units, and otherwise raises OutOfBounds. -/
def Obligations.FieldReadNeedsItsUnits : Prop :=
  ∀ (s : State) (d : FieldDescriptor), s.Inv → s.err = 0 → d ∈ fieldTable →
    (d.minCnt ≤ s.cnt.toNat → ∃ (t : State) (v : Nat), exec d.command s = .next t ∧ s.ReadOk t v ∧
      memRead s.u d.offset d.length = some v ∧ v < 2 ^ d.length) ∧
    (s.cnt.toNat < d.minCnt → ∃ t, exec d.command s = .next t ∧ s.TakesFault t 2)

/-- R123: the client's decode pass. A payload of at least 28 alphabet characters that the buffer can hold
goes through `DECODE` and `XMT` without a fault; the pass goes on exactly if the first character decodes
to 1, 2 or 3; and the fifteen `XFLD` commands then all succeed and return the fields of the decoded
payload, in table order. -/
def Obligations.DecodePassReturnsEveryField : Prop :=
  ∀ (s : State) (payload : List CharCode), s.params.wf = true → 28 ≤ payload.length →
    payload.length ≤ s.params.cap → (∀ c ∈ payload, (alpha s.params c s.fixf).isSome) →
    ∃ (t t' : State) (vs : List Nat),
      run (payload.length + 2) (s.given (present (passHead payload))) = .next t ∧
      (passGoesOn (t.responses.drop s.responses.length) = true ↔
        ∃ c v, payload[0]? = some c ∧ alpha s.params c s.fixf = some v ∧ 1 ≤ v.toNat ∧ v.toNat ≤ 3) ∧
      run 15 (t.given (present passFields)) = .next t' ∧ t.SameBlock t' ∧
      t.cnt.toNat = payload.length ∧ t.err = 0 ∧
      (∀ a, Memory.read t.u a = payload[a]?.bind (alpha s.params · s.fixf)) ∧
      vs.length = 15 ∧
      t'.responses = t.responses ++ vs.map (fun v => ⟨false, 0, BitVec.ofNat 32 v⟩) ∧
      ∀ q ∈ fieldTable.zip vs, memRead t.u q.1.offset q.1.length = some q.2 ∧ q.2 < 2 ^ q.1.length

/-- R40: a read that succeeded returns the same value after any number of further successful PUSH
commands. -/
def Obligations.ReadsStayValidUnderAppends : Prop :=
  ∀ (s : State) (len : LenField) (off : OffField) (cs : List CharCode), s.Inv → s.err = 0 →
    1 ≤ len.toNat → len.toNat ≤ 32 → off.toNat + len.toNat ≤ 6 * s.cnt.toNat →
    (∀ c ∈ cs, (alpha s.params c s.fixf).isSome) → s.cnt.toNat + cs.length ≤ s.params.cap →
    ∃ (t s' t' : State) (v : Nat), exec (.xtr len off) s = .next s' ∧ s.ReadOk s' v ∧
      run cs.length (s.given (present (cs.map .push))) = .next t ∧
      t.cnt.toNat = s.cnt.toNat + cs.length ∧
      exec (.xtr len off) t = .next t' ∧ t.ReadOk t' v

/-- R91: what XTR returns depends only on the buffer, CNT and ERR: two states that agree on them give
the same response, whatever FIXF, FSEEN, the parameters and the history are. A success changes no
state, and a fault changes ERR only. -/
def Obligations.XtrDependsOnlyOnTheBuffer : Prop :=
  ∀ (s s' : State) (len : LenField) (off : OffField), s.Inv → s'.Inv → s'.u = s.u → s'.cnt = s.cnt →
    s'.err = s.err →
    ∃ (r : Response) (t t' : State), exec (.xtr len off) s = .next t ∧
      exec (.xtr len off) s' = .next t' ∧ s.Returns t r ∧ s'.Returns t' r ∧ t'.err = t.err ∧
      (r.f = false → s.SameBlock t) ∧ (r.f = true → s.TakesFault t r.code)

/-- R36: a successful XTR, XMT or RDST changes no state, so repeating it gives the same value and any two
of them commute. -/
def Obligations.SuccessfulReadsCommute : Prop :=
  ∀ (i j : Instr) (s t t' : State) (v v' : Word),
    (∀ k, k = i ∨ k = j → isWithinPayload k = true ∧ ∀ c, k ≠ .push c) →
    exec i s = .next t → s.Returns t ⟨false, 0, v⟩ →
    exec j s = .next t' → s.Returns t' ⟨false, 0, v'⟩ →
    s.SameBlock t ∧
    (∃ u, exec i t = .next u ∧ t.SameBlock u ∧ t.Returns u ⟨false, 0, v⟩) ∧
    (∃ u, exec j t = .next u ∧ t.SameBlock u ∧ t.Returns u ⟨false, 0, v'⟩) ∧
    (∃ u, exec i t' = .next u ∧ t'.SameBlock u ∧ t'.Returns u ⟨false, 0, v⟩)

/-! ## Faults and the aborted state -/

/-- R55: the response as one 36-bit value. -/
def Obligations.ResponsePacksIntoThirtySixBits : Prop :=
  ∀ r : Response, r.packed.getLsbD 35 = r.f ∧ r.packed.extractLsb' 32 3 = r.code ∧
    r.packed.extractLsb' 0 32 = r.val ∧
    r.packed.toNat = r.f.toNat * 2 ^ 35 + r.code.toNat * 2 ^ 32 + r.val.toNat

/-- R153: whatever the word and the state, a step on a command word that answers a next state returns one
response; if it is a fault, its code is 1 to 7, its VAL is 0, ERR takes the code only if it was 0 and
the code is not 7, and nothing else changes; if it is a success, its CODE is 0, and ERR is as before
unless the command is CLR. -/
def Obligations.AFaultChangesNothingButErr : Prop :=
  ∀ (s t : State) (w : Word) (rest : List HostEvent), s.inputs = .command w :: rest →
    step s = .next t →
    ∃ r : Response, State.Returns (s.given rest) t r ∧
      (r.f = true → r.code ≠ 0 ∧ r.val = 0 ∧ State.TakesFault (s.given rest) t r.code) ∧
      (r.f = false → r.code = 0 ∧ (t.err = s.err ∨ decode w = .ok .clr))

/-- R154, R146: in the aborted state the four message-scoped commands raise MessageAborted and change
nothing, RDST executes normally, CLR executes and ends the aborted state, and an illegal word raises
IllegalCommand and leaves ERR. -/
def Obligations.AbortedStateGatesTheMessageCommands : Prop :=
  ∀ s : State, s.err ≠ 0 →
    (∀ i, i ≠ .clr → i ≠ .rdst →
      ∃ t, exec i s = .next t ∧ s.SameBlock t ∧ s.Returns t ⟨true, 7, 0⟩) ∧
    (∃ (t : State) (v : Word), exec .rdst s = .next t ∧ s.SameBlock t ∧ s.Returns t ⟨false, 0, v⟩ ∧
      v.extractLsb' 16 3 = s.err) ∧
    (∃ t, exec .clr s = .next t ∧ t.err = 0 ∧ s.Returns t ⟨false, 0, 0⟩) ∧
    (∀ w r rest, decode w = .error r → s.inputs = .command w :: rest →
      ∃ t, step s = .next t ∧ s.SameBlock t ∧ State.Returns (s.given rest) t ⟨true, 5, 0⟩)

/-- R154, R156: only CLR and reset leave the aborted state: any sequence of words without them leaves
the whole block as it was. -/
def Obligations.OnlyClrAndResetLeaveTheAbortedState : Prop :=
  ∀ (s : State) (ws : List Word), s.err ≠ 0 → (∀ w ∈ ws, decode w ≠ .ok .clr) →
    ∃ t, run ws.length (s.given (ws.map .command)) = .next t ∧ s.SameBlock t ∧
      t.responses.length = s.responses.length + ws.length

/-- R15, R157: ERR holds the first fault since CLR or reset. From ERR = 0 a command word that responds with
a fault latches that fault's code, 1 to 6; from ERR other than 0 no word but CLR changes ERR; a word that
responds with a success leaves ERR unless it is CLR; CLR and reset give 0; and no other step changes
ERR. -/
def Obligations.ErrHoldsTheFirstFault : Prop :=
  ∀ s t : State, step s = .next t →
    (∀ w rest r, s.inputs = .command w :: rest → State.Returns (s.given rest) t r →
      (s.err = 0 → r.f = true → t.err = r.code ∧ 1 ≤ t.err.toNat ∧ t.err.toNat ≤ 6) ∧
      (s.err ≠ 0 → decode w ≠ .ok .clr → t.err = s.err) ∧
      (r.f = false → decode w ≠ .ok .clr → t.err = s.err)) ∧
    (∀ rest, s.inputs = .command 0x10000000 :: rest ∨ s.inputs = .reset :: rest → t.err = 0) ∧
    (t.err = s.err ∨
      (s.err = 0 ∧ 1 ≤ t.err.toNat ∧ t.err.toNat ≤ 6 ∧ t.lastResponse = some ⟨true, t.err, 0⟩ ∧
        ∃ w rest, s.inputs = .command w :: rest) ∨
      (t.err = 0 ∧ ∃ rest, s.inputs = .command 0x10000000 :: rest ∨ s.inputs = .reset :: rest))

/-- R11, R14, R16, R17: the events that write the buffer, CNT, FSEEN and FIXF. A step that changes one
of them is a PUSH of an alphabet character (cell CNT, CNT + 1, and FSEEN if the character is 0x66), a
CLR, a reset, or for FIXF a WCTL on an empty, fault-free buffer. -/
def Obligations.EachRegisterIsWrittenByItsEventsOnly : Prop :=
  ∀ s t : State, s.Inv → step s = .next t →
    (t.u = s.u ∧ t.cnt = s.cnt ∧ t.fseen = s.fseen ∧ t.fixf = s.fixf) ∨
    (∃ c v rest, s.inputs = .command (encode (.push c)) :: rest ∧ s.err = 0 ∧
      alpha s.params c s.fixf = some v ∧ s.cnt.toNat < s.params.cap ∧
      t.cnt.toNat = s.cnt.toNat + 1 ∧
      (∀ a, Memory.read t.u a = if a = s.cnt.toNat then some v else Memory.read s.u a) ∧
      t.fseen = (s.fseen || decide (c = 0x66)) ∧ t.fixf = s.fixf) ∨
    (∃ rest, s.inputs = .command (encode .clr) :: rest ∧ t.u = [] ∧ t.cnt = 0 ∧ t.fseen = false ∧
      t.fixf = s.fixf) ∨
    (∃ f rest, s.inputs = .command (encode (.wctl f)) :: rest ∧ s.err = 0 ∧ s.cnt = 0 ∧ t.fixf = f ∧
      t.u = s.u ∧ t.cnt = s.cnt ∧ t.fseen = s.fseen) ∨
    (∃ rest, s.inputs = .reset :: rest ∧ t.u = [] ∧ t.cnt = 0 ∧ t.fseen = false ∧
      t.fixf = s.params.fixfReset)

/-- The frame of every command (the table of R21): when a command answers a next state, FIXF is changed
by WCTL only; CNT, FSEEN and the buffer by PUSH and CLR only, and by PUSH in no cell but the one
`appendAddress` computes; ERR by CLR, or from 0 by a fault; the parameters and what the host has queued
by none. -/
def Obligations.EveryCommandKeepsWhatItDoesNotWrite : Prop :=
  ∀ (i : Instr) (s t : State), exec i s = .next t →
    ((∀ f, i ≠ .wctl f) → t.fixf = s.fixf) ∧
    ((∀ c, i ≠ .push c) → i ≠ .clr → t.cnt = s.cnt ∧ t.fseen = s.fseen ∧ t.u = s.u) ∧
    (∀ c, i = .push c → ∀ a, a ≠ appendAddress s → Memory.read t.u a = Memory.read s.u a) ∧
    (∀ c, i = .push c → c ≠ 0x66 → t.fseen = s.fseen) ∧
    (i ≠ .clr → s.err ≠ 0 → t.err = s.err) ∧
    (i ≠ .clr → t.err = s.err ∨ ∃ r, s.Returns t r ∧ r.f = true ∧ r.code = t.err) ∧
    t.params = s.params ∧ t.inputs = s.inputs ∧ ∃ r, s.Returns t r

/-! ## Invariants -/

/-- R19 (c) at reset, for every chip: the invariant holds of the reset state. -/
def Obligations.ResetStateMeetsTheInvariant : Prop :=
  (∀ p : Params, p.wf = true → (State.resetWith p).Inv ∧ (State.resetWith p).UnitsAreDecodes) ∧
  State.reset.Inv ∧ State.reset.UnitsAreDecodes

/-- R19 (c): every step keeps the invariant, from every state that meets it. -/
def Obligations.EveryStepKeepsTheInvariant : Prop :=
  ∀ s t : State, s.Inv → step s = .next t → t.Inv

/-- R17, R43, R115: no buffer mixes units of two tables. Every step keeps that every unit is the decode of
a character under the table selected now; the table changes only into an empty buffer; and a unit that
was not in its cell before is the decode, under the table selected before the step, of the character
just pushed. -/
def Obligations.NoBufferMixesTwoTables : Prop :=
  ∀ s t : State, s.Inv → s.UnitsAreDecodes → step s = .next t →
    t.UnitsAreDecodes ∧
    (t.fixf = s.fixf ∨ t.u = []) ∧
    ∀ a v, Memory.read t.u a = some v → Memory.read s.u a = some v ∨
      ∃ c rest, s.inputs = .command (encode (.push c)) :: rest ∧ alpha s.params c s.fixf = some v

/-- R161, R39: from every state that meets the invariant, whatever the host presents, the model never
stops: every event is performed, every command word adds exactly one response to those already
returned, and the invariant holds at the end. That a reset returns no response and keeps the queue and
the earlier responses, on which the count rests, is the model's choice (log entry 8). -/
def Obligations.EveryCommandReturnsOneResponse : Prop :=
  ∀ (s : State) (events : List HostEvent), s.Inv →
    ∃ (t : State) (rs : List Response), run events.length (s.given events) = .next t ∧ t.Inv ∧
      t.inputs = [] ∧ t.responses = s.responses ++ rs ∧
      rs.length = events.countP fun e => decide (e ≠ .reset)

/-! ## Several instances -/

/-- R159: instances share nothing: a step of one leaves every other as it was, and steps of two
instances give the same system in either order. -/
def Obligations.InstancesAreIndependent : Prop :=
  (∀ (j : Nat) (system system' : List State), stepInstance j system = .next system' →
    system'.length = system.length ∧ (∀ k, k ≠ j → system'[k]? = system[k]?) ∧
    (∀ s, system[j]? = some s → ∃ t, step s = .next t ∧ system'[j]? = some t)) ∧
  (∀ (j k : Nat) (system a b : List State), j ≠ k →
    stepInstance j system = .next a → stepInstance k system = .next b →
    ∃ c, stepInstance k a = .next c ∧ stepInstance j b = .next c)
end

