-- ==== Sys2Proof/Laws/Memory.lean ====
section
/-! SUPPORT. The laws of the buffer as memory: a read after a write, the canonical form, and the bits a
read is made of. -/

namespace Sys2Proof.Machine

@[simp] theorem Memory.read_nil (a : Nat) : Memory.read [] a = none := rfl

theorem Memory.read_cons (b : Nat) (v : Unit6) (m : Memory) (a : Nat) :
    Memory.read ((b, v) :: m) a = if b = a then some v else Memory.read m a := rfl

/-- A write changes the cell written and no other (R32). -/
theorem Memory.read_write (m : Memory) (a b : Nat) (v : Unit6) :
    Memory.read (Memory.write m a v) b = if a = b then some v else Memory.read m b := by
  induction m with
  | nil => rfl
  | cons c m ih =>
    obtain ⟨d, x⟩ := c
    simp only [Memory.write]
    split
    · rfl
    · split
      · subst d; simp only [Memory.read_cons]; split <;> rfl
      · simp only [Memory.read_cons, ih]
        split
        · subst d; rw [if_neg (by assumption)]
        · rfl

theorem Memory.read_write_same (m : Memory) (a : Nat) (v : Unit6) :
    Memory.read (Memory.write m a v) a = some v := by
  simp [Memory.read_write]

theorem Memory.read_write_other (m : Memory) {a b : Nat} (v : Unit6) (h : a ≠ b) :
    Memory.read (Memory.write m a v) b = Memory.read m b := by
  simp [Memory.read_write, h]

/-- Every cell of a written buffer is the cell written or was there before. -/
theorem Memory.mem_write {m : Memory} {a : Nat} {v : Unit6} {c : Nat × Unit6}
    (h : c ∈ Memory.write m a v) : c = (a, v) ∨ c ∈ m := by
  induction m with
  | nil => simpa [Memory.write] using h
  | cons d m ih =>
    simp only [Memory.write] at h
    split at h
    · simpa using h
    · split at h
      · rcases List.mem_cons.mp h with h | h
        · exact .inl h
        · exact .inr (List.mem_cons_of_mem _ h)
      · rcases List.mem_cons.mp h with h | h
        · exact .inr (h ▸ List.mem_cons_self)
        · exact (ih h).imp_right (List.mem_cons_of_mem _)

theorem Memory.wf_iff (cap : Nat) (m : Memory) :
    Memory.wf cap m = true ↔ m.Pairwise (fun c d => c.1 < d.1) ∧ ∀ c ∈ m, c.1 < cap := by
  simp [Memory.wf]

@[simp] theorem Memory.wf_nil (cap : Nat) : Memory.wf cap [] = true := by simp [Memory.wf_iff]

theorem Memory.rising_write {m : Memory} (h : m.Pairwise fun c d => c.1 < d.1) (a : Nat) (v : Unit6) :
    (Memory.write m a v).Pairwise fun c d => c.1 < d.1 := by
  induction m with
  | nil => simp [Memory.write]
  | cons d m ih =>
    obtain ⟨hd, hm⟩ := List.pairwise_cons.mp h
    simp only [Memory.write]
    split
    · rename_i ha
      refine List.pairwise_cons.mpr ⟨fun c hc => ?_, h⟩
      rcases List.mem_cons.mp hc with rfl | hc
      · exact ha
      · exact Nat.lt_trans ha (hd c hc)
    · split
      · rename_i ha
        exact List.pairwise_cons.mpr ⟨fun c hc => ha ▸ hd c hc, hm⟩
      · refine List.pairwise_cons.mpr ⟨fun c hc => ?_, ih hm⟩
        rcases Memory.mem_write hc with rfl | hc
        · simp only; omega
        · exact hd c hc

/-- A write inside the chip keeps the canonical form. -/
theorem Memory.wf_write {cap : Nat} {m : Memory} (h : Memory.wf cap m = true) {a : Nat} (ha : a < cap)
    (v : Unit6) : Memory.wf cap (Memory.write m a v) = true := by
  obtain ⟨hr, hc⟩ := (Memory.wf_iff cap m).mp h
  refine (Memory.wf_iff cap _).mpr ⟨Memory.rising_write hr a v, fun c hm => ?_⟩
  rcases Memory.mem_write hm with rfl | hm
  · exact ha
  · exact hc c hm

/-- Two buffers in canonical form that read the same are the same list. -/
theorem Memory.ext_of_rising {m n : Memory} (hm : m.Pairwise fun c d => c.1 < d.1)
    (hn : n.Pairwise fun c d => c.1 < d.1) (h : ∀ a, Memory.read m a = Memory.read n a) : m = n := by
  have low : ∀ (l : Memory) (a : Nat), (∀ c ∈ l, a < c.1) → Memory.read l a = none := by
    intro l a hl
    induction l with
    | nil => rfl
    | cons c l ih =>
      have := hl c List.mem_cons_self
      rw [Memory.read_cons, if_neg (by omega)]
      exact ih fun d hd => hl d (List.mem_cons_of_mem _ hd)
  induction m generalizing n with
  | nil =>
    cases n with
    | nil => rfl
    | cons d n =>
      have hd := h d.1
      rw [Memory.read_cons d.1 d.2 n d.1, if_pos rfl] at hd
      simp at hd
  | cons c m ih =>
    obtain ⟨a, x⟩ := c
    obtain ⟨hc, hm'⟩ := List.pairwise_cons.mp hm
    cases n with
    | nil =>
      have ha := h a
      rw [Memory.read_cons, if_pos rfl] at ha
      simp at ha
    | cons d n =>
      obtain ⟨b, y⟩ := d
      obtain ⟨hd, hn'⟩ := List.pairwise_cons.mp hn
      have hab : a = b := by
        rcases Nat.lt_trichotomy a b with hlt | heq | hgt
        · have ha := h a
          rw [Memory.read_cons, if_pos rfl, Memory.read_cons, if_neg (by omega),
            low n a fun e he => Nat.lt_trans hlt (hd e he)] at ha
          simp at ha
        · exact heq
        · have hb := h b
          rw [Memory.read_cons, if_neg (by omega), Memory.read_cons, if_pos rfl,
            low m b fun e he => Nat.lt_trans hgt (hc e he)] at hb
          simp at hb
      subst hab
      have hxy : x = y := by simpa [Memory.read_cons] using h a
      subst hxy
      congr 1
      refine ih hm' hn' fun e => ?_
      by_cases hea : a = e
      · subst hea; rw [low m a hc, low n a hd]
      · simpa [Memory.read_cons, hea] using h e

/-- A stream bit depends on its own cell only (R30). -/
theorem bufBit_eq (m : Memory) (k : Nat) :
    bufBit m k = (Memory.read m (k / 6)).map fun v => v.getLsbD (5 - k % 6) := by
  unfold bufBit; cases Memory.read m (k / 6) <;> rfl

@[simp] theorem memRead_zero (m : Memory) (k : Nat) : memRead m k 0 = some 0 := rfl

theorem memRead_succ (m : Memory) (k n : Nat) :
    memRead m k (n + 1) =
      (memRead m k n).bind fun v => (bufBit m (k + n)).map fun b => 2 * v + b.toNat := by
  rw [memRead]; cases memRead m k n <;> cases bufBit m (k + n) <;> rfl

/-- A field depends on its own cells only. -/
theorem memRead_congr {m m' : Memory} {k n : Nat}
    (h : ∀ i, i < n → Memory.read m ((k + i) / 6) = Memory.read m' ((k + i) / 6)) :
    memRead m k n = memRead m' k n := by
  induction n with
  | zero => rfl
  | succ n ih =>
    simp only [memRead_succ, bufBit_eq, ih fun i hi => h i (by omega), h n (by omega)]

/-- A field whose cells all hold a value reads as a value of its width (R31). -/
theorem memRead_some {m : Memory} {k n : Nat}
    (h : ∀ i, i < n → (Memory.read m ((k + i) / 6)).isSome) :
    ∃ v, memRead m k n = some v ∧ v < 2 ^ n := by
  induction n with
  | zero => exact ⟨0, rfl, by simp⟩
  | succ n ih =>
    obtain ⟨v, hv, hlt⟩ := ih fun i hi => h i (by omega)
    obtain ⟨w, hw⟩ := Option.isSome_iff_exists.mp (h n (by omega))
    have := (w.getLsbD (5 - (k + n) % 6)).toNat_le
    refine ⟨2 * v + (w.getLsbD (5 - (k + n) % 6)).toNat, ?_, by rw [pow_succ]; omega⟩
    simp [memRead_succ, hv, bufBit_eq, hw]

/-- Composition of reads (R41). -/
theorem memRead_add (m : Memory) (k n j : Nat) :
    memRead m k (n + j) =
      (memRead m k n).bind fun v => (memRead m (k + n) j).map fun w => v * 2 ^ j + w := by
  induction j with
  | zero => simp
  | succ j ih =>
    rw [← Nat.add_assoc, memRead_succ, ih, memRead_succ]
    rw [show k + (n + j) = k + n + j by omega]
    cases memRead m k n <;> cases memRead m (k + n) j <;> cases bufBit m (k + n + j) <;>
      simp [pow_succ]
    ring

end Sys2Proof.Machine
end

