-- ==== Sys2Proof/Laws/State.lean ====
section
/-! SUPPORT. One lemma for each field of each update of State, so that no proof unfolds a record
update. -/

namespace Sys2Proof.Machine

/-! `respond`. -/

@[simp] theorem respond_u (r : Response) (s : State) : (respond r s).u = s.u := rfl
@[simp] theorem respond_cnt (r : Response) (s : State) : (respond r s).cnt = s.cnt := rfl
@[simp] theorem respond_err (r : Response) (s : State) : (respond r s).err = s.err := rfl
@[simp] theorem respond_fseen (r : Response) (s : State) : (respond r s).fseen = s.fseen := rfl
@[simp] theorem respond_fixf (r : Response) (s : State) : (respond r s).fixf = s.fixf := rfl
@[simp] theorem respond_params (r : Response) (s : State) : (respond r s).params = s.params := rfl
@[simp] theorem respond_inputs (r : Response) (s : State) : (respond r s).inputs = s.inputs := rfl
@[simp] theorem respond_responses (r : Response) (s : State) : (respond r s).responses = s.responses ++ [r] := rfl

/-! `raise` (R153). -/

@[simp] theorem raise_u (c : BlockFault) (s : State) : (raise c s).u = s.u := rfl
@[simp] theorem raise_cnt (c : BlockFault) (s : State) : (raise c s).cnt = s.cnt := rfl
@[simp] theorem raise_err (c : BlockFault) (s : State) : (raise c s).err = (if c ≠ .messageAborted ∧ s.err = 0 then c.code else s.err) := rfl
@[simp] theorem raise_fseen (c : BlockFault) (s : State) : (raise c s).fseen = s.fseen := rfl
@[simp] theorem raise_fixf (c : BlockFault) (s : State) : (raise c s).fixf = s.fixf := rfl
@[simp] theorem raise_params (c : BlockFault) (s : State) : (raise c s).params = s.params := rfl
@[simp] theorem raise_inputs (c : BlockFault) (s : State) : (raise c s).inputs = s.inputs := rfl
@[simp] theorem raise_responses (c : BlockFault) (s : State) : (raise c s).responses = s.responses ++ [faultResponse c] := rfl

/-! `clearMessage` (R110). -/

@[simp] theorem clearMessage_u (s : State) : (clearMessage s).u = [] := rfl
@[simp] theorem clearMessage_cnt (s : State) : (clearMessage s).cnt = 0 := rfl
@[simp] theorem clearMessage_err (s : State) : (clearMessage s).err = 0 := rfl
@[simp] theorem clearMessage_fseen (s : State) : (clearMessage s).fseen = false := rfl
@[simp] theorem clearMessage_fixf (s : State) : (clearMessage s).fixf = s.fixf := rfl
@[simp] theorem clearMessage_params (s : State) : (clearMessage s).params = s.params := rfl
@[simp] theorem clearMessage_inputs (s : State) : (clearMessage s).inputs = s.inputs := rfl
@[simp] theorem clearMessage_responses (s : State) : (clearMessage s).responses = s.responses := rfl

/-! `takeReset` (R171). -/

@[simp] theorem takeReset_u (s : State) : (takeReset s).u = [] := rfl
@[simp] theorem takeReset_cnt (s : State) : (takeReset s).cnt = 0 := rfl
@[simp] theorem takeReset_err (s : State) : (takeReset s).err = 0 := rfl
@[simp] theorem takeReset_fseen (s : State) : (takeReset s).fseen = false := rfl
@[simp] theorem takeReset_fixf (s : State) : (takeReset s).fixf = s.params.fixfReset := rfl
@[simp] theorem takeReset_params (s : State) : (takeReset s).params = s.params := rfl
@[simp] theorem takeReset_inputs (s : State) : (takeReset s).inputs = s.inputs := rfl
@[simp] theorem takeReset_responses (s : State) : (takeReset s).responses = s.responses := rfl

/-! `noteF` (R16). -/

@[simp] theorem noteF_u (c : CharCode) (s : State) : (noteF c s).u = s.u := rfl
@[simp] theorem noteF_cnt (c : CharCode) (s : State) : (noteF c s).cnt = s.cnt := rfl
@[simp] theorem noteF_err (c : CharCode) (s : State) : (noteF c s).err = s.err := rfl
@[simp] theorem noteF_fseen (c : CharCode) (s : State) : (noteF c s).fseen = (if c = codeOfF then true else s.fseen) := rfl
@[simp] theorem noteF_fixf (c : CharCode) (s : State) : (noteF c s).fixf = s.fixf := rfl
@[simp] theorem noteF_params (c : CharCode) (s : State) : (noteF c s).params = s.params := rfl
@[simp] theorem noteF_inputs (c : CharCode) (s : State) : (noteF c s).inputs = s.inputs := rfl
@[simp] theorem noteF_responses (c : CharCode) (s : State) : (noteF c s).responses = s.responses := rfl

/-! `finishPush` (R70). -/

@[simp] theorem finishPush_u (c : CharCode) (v : Unit6) (s : State) : (finishPush c v s).u = s.u := rfl
@[simp] theorem finishPush_cnt (c : CharCode) (v : Unit6) (s : State) : (finishPush c v s).cnt = s.cnt := rfl
@[simp] theorem finishPush_err (c : CharCode) (v : Unit6) (s : State) : (finishPush c v s).err = s.err := rfl
@[simp] theorem finishPush_fseen (c : CharCode) (v : Unit6) (s : State) : (finishPush c v s).fseen = (if c = codeOfF then true else s.fseen) := rfl
@[simp] theorem finishPush_fixf (c : CharCode) (v : Unit6) (s : State) : (finishPush c v s).fixf = s.fixf := rfl
@[simp] theorem finishPush_params (c : CharCode) (v : Unit6) (s : State) : (finishPush c v s).params = s.params := rfl
@[simp] theorem finishPush_inputs (c : CharCode) (v : Unit6) (s : State) : (finishPush c v s).inputs = s.inputs := rfl
@[simp] theorem finishPush_responses (c : CharCode) (v : Unit6) (s : State) : (finishPush c v s).responses = s.responses ++ [okResponse (v.setWidth 32)] := rfl

end Sys2Proof.Machine
end

