-- ==== Sys2Proof/Laws/Ops.lean ====
section
/-! SUPPORT. What each shared operation and each meaning can do, said once: the provers cite these and
unfold nothing. -/

namespace Sys2Proof.Machine

/-! The abort gate (R154). -/

theorem unlessAborted_of_err {s : State} (k : State → Result) (h : s.err ≠ 0) :
    unlessAborted s k = .next (raise .messageAborted s) := if_pos h

theorem unlessAborted_of_no_err {s : State} (k : State → Result) (h : s.err = 0) :
    unlessAborted s k = k s := if_neg (not_not.mpr h)

/-- The code of a fault is never 0, and 7 only for MessageAborted (R140). -/
theorem BlockFault.code_ne_zero (c : BlockFault) : c.code ≠ 0 := by cases c <;> decide

theorem BlockFault.code_eq_seven (c : BlockFault) : c.code = 7 ↔ c = .messageAborted := by
  cases c <;> decide

theorem BlockFault.code_le (c : BlockFault) (h : c ≠ .messageAborted) : c.code.toNat ≤ 6 := by
  cases c <;> first | decide | exact absurd rfl h

/-- In the aborted state a fault changes nothing but the responses (R157). -/
theorem raise_of_err {s : State} (c : BlockFault) (h : s.err ≠ 0) :
    raise c s = respond (faultResponse c) s := by
  unfold raise; rw [if_neg fun x => h x.2]

/-! The write of the buffer. -/

theorem append_of_lt {s : State} (v : Unit6) (h : s.cnt.toNat < s.params.cap) :
    append v s = .next { s with u := Memory.write s.u (appendAddress s) v, cnt := s.cnt + 1 } :=
  if_pos h

theorem append_of_ge {s : State} (v : Unit6) (h : s.params.cap ≤ s.cnt.toNat) :
    append v s = .fault .noSuchCell := if_neg (Nat.not_lt.mpr h)

/-! The read of the buffer. -/

theorem inMap_iff (s : State) (k n : Nat) : inMap s k n = true ↔ k + n ≤ 6 * s.cnt.toNat := by
  simp [inMap]

theorem readField_of_out {s : State} {off len : Nat} (h : 6 * s.cnt.toNat < off + len) :
    readField off len s = .next (raise .outOfBounds s) := by
  unfold readField; rw [if_neg]; rw [inMap_iff]; omega

theorem readField_of_some {s : State} {off len v : Nat} (h : off + len ≤ 6 * s.cnt.toNat)
    (hv : memRead s.u off len = some v) :
    readField off len s = .next (respond (okResponse (BitVec.ofNat 32 v)) s) := by
  unfold readField; rw [if_pos ((inMap_iff s off len).mpr h), hv]

/-- All that `readField` can answer. -/
theorem readField_next {s t : State} {off len : Nat} (h : readField off len s = .next t) :
    (off + len ≤ 6 * s.cnt.toNat ∧
      ∃ v, memRead s.u off len = some v ∧ t = respond (okResponse (BitVec.ofNat 32 v)) s) ∨
    (6 * s.cnt.toNat < off + len ∧ t = raise .outOfBounds s) := by
  unfold readField at h
  by_cases hm : inMap s off len = true
  · rw [if_pos hm] at h
    rw [inMap_iff] at hm
    cases hv : memRead s.u off len with
    | none => simp [hv] at h
    | some v => rw [hv] at h; cases h; exact .inl ⟨hm, v, rfl, rfl⟩
  · rw [if_neg hm] at h; cases h
    rw [inMap_iff] at hm
    exact .inr ⟨by omega, rfl⟩

/-! The meanings. -/

theorem lenServed_iff (n : Nat) : lenServed n = true ↔ 1 ≤ n ∧ n ≤ 32 := by simp [lenServed]

/-- In the aborted state every command but CLR and RDST does nothing but respond (R154). -/
theorem exec_of_err {i : Instr} {s : State} (he : s.err ≠ 0) (hc : i ≠ .clr) (hr : i ≠ .rdst) :
    exec i s = .next (raise .messageAborted s) := by
  cases i with
  | clr => exact absurd rfl hc
  | rdst => exact absurd rfl hr
  | push c => simp only [exec, execPush]; exact unlessAborted_of_err _ he
  | xtr len off => simp only [exec, execXtr]; exact unlessAborted_of_err _ he
  | xmt => simp only [exec, execXmt]; exact unlessAborted_of_err _ he
  | wctl f => simp only [exec, execWctl]; exact unlessAborted_of_err _ he

/-- XTR of a length it does not serve (R92). -/
theorem execXtr_of_bad_length {s : State} {len : LenField} {off : OffField} (he : s.err = 0)
    (h : ¬(1 ≤ len.toNat ∧ len.toNat ≤ 32)) :
    execXtr len off s = .next (raise .invalidLength s) := by
  unfold execXtr
  rw [unlessAborted_of_no_err _ he]
  exact if_neg fun hl => h ((lenServed_iff _).mp hl)

/-- XTR of a length it serves is the bounds check and the read (R90). -/
theorem execXtr_of_length {s : State} {len : LenField} {off : OffField} (he : s.err = 0)
    (h : 1 ≤ len.toNat ∧ len.toNat ≤ 32) :
    execXtr len off s = readField off.toNat len.toNat s := by
  unfold execXtr
  rw [unlessAborted_of_no_err _ he]
  exact if_pos ((lenServed_iff _).mpr h)

/-- XMT is the bounds check and the read of `off = 0`, `len = 6` (R98). -/
theorem execXmt_of_no_err {s : State} (he : s.err = 0) : execXmt s = readField 0 6 s := by
  unfold execXmt
  rw [unlessAborted_of_no_err _ he]
  rfl

theorem execWctl_of_units {s : State} {f : Bool} (he : s.err = 0) (hc : s.cnt ≠ 0) :
    execWctl f s = .next (raise .ctlLocked s) := by
  unfold execWctl
  rw [unlessAborted_of_no_err _ he]
  exact if_pos hc

theorem execWctl_of_empty {s : State} {f : Bool} (he : s.err = 0) (hc : s.cnt = 0) :
    execWctl f s = .next (respond (okResponse 0) { s with fixf := f }) := by
  unfold execWctl
  rw [unlessAborted_of_no_err _ he]
  exact if_neg (not_not.mpr hc)

theorem execPush_of_none {s : State} {c : CharCode} (he : s.err = 0)
    (ha : alpha s.params c s.fixf = none) :
    execPush c s = .next (raise .invalidCharacter s) := by
  unfold execPush
  rw [unlessAborted_of_no_err _ he]
  simp only [ha]

theorem execPush_of_full {s : State} {c : CharCode} {v : Unit6} (he : s.err = 0)
    (ha : alpha s.params c s.fixf = some v) (hc : s.cnt.toNat = s.params.cap) :
    execPush c s = .next (raise .bufferOverflow s) := by
  unfold execPush
  rw [unlessAborted_of_no_err _ he]
  simp only [ha]
  exact if_pos hc

/-- A PUSH that appends (R70). -/
theorem execPush_of_some {s : State} {c : CharCode} {v : Unit6} (he : s.err = 0)
    (ha : alpha s.params c s.fixf = some v) (hc : s.cnt.toNat < s.params.cap) :
    execPush c s = .next (finishPush c v
      { s with u := Memory.write s.u (appendAddress s) v, cnt := s.cnt + 1 }) := by
  unfold execPush
  rw [unlessAborted_of_no_err _ he]
  simp only [ha]
  rw [if_neg (by omega), append_of_lt v hc]

/-- All that PUSH can answer (R70). -/
theorem execPush_next {s t : State} {c : CharCode} (h : execPush c s = .next t) :
    (s.err ≠ 0 ∧ t = raise .messageAborted s) ∨
    (s.err = 0 ∧ alpha s.params c s.fixf = none ∧ t = raise .invalidCharacter s) ∨
    (s.err = 0 ∧ (∃ v, alpha s.params c s.fixf = some v) ∧ s.cnt.toNat = s.params.cap ∧
      t = raise .bufferOverflow s) ∨
    (s.err = 0 ∧ s.cnt.toNat < s.params.cap ∧ ∃ v, alpha s.params c s.fixf = some v ∧
      t = finishPush c v
        { s with u := Memory.write s.u (appendAddress s) v, cnt := s.cnt + 1 }) := by
  by_cases he : s.err = 0
  · cases ha : alpha s.params c s.fixf with
    | none =>
      unfold execPush at h
      rw [unlessAborted_of_no_err _ he] at h
      simp only [ha] at h
      cases h; exact .inr (.inl ⟨he, rfl, rfl⟩)
    | some v =>
      by_cases hc : s.cnt.toNat < s.params.cap
      · rw [execPush_of_some he ha hc] at h; cases h
        exact .inr (.inr (.inr ⟨he, hc, v, rfl, rfl⟩))
      · unfold execPush at h
        rw [unlessAborted_of_no_err _ he] at h
        simp only [ha, append_of_ge v (Nat.not_lt.mp hc)] at h
        by_cases hq : s.cnt.toNat = s.params.cap
        · rw [if_pos hq] at h; cases h; exact .inr (.inr (.inl ⟨he, ⟨v, rfl⟩, hq, rfl⟩))
        · rw [if_neg hq] at h; cases h
  · unfold execPush at h; rw [unlessAborted_of_err _ he] at h; cases h; exact .inl ⟨he, rfl⟩

/-- All that XTR can answer (R90). -/
theorem execXtr_next {s t : State} {len : LenField} {off : OffField}
    (h : execXtr len off s = .next t) :
    (s.err ≠ 0 ∧ t = raise .messageAborted s) ∨
    (s.err = 0 ∧ ¬(1 ≤ len.toNat ∧ len.toNat ≤ 32) ∧ t = raise .invalidLength s) ∨
    (s.err = 0 ∧ (1 ≤ len.toNat ∧ len.toNat ≤ 32) ∧ 6 * s.cnt.toNat < off.toNat + len.toNat ∧
      t = raise .outOfBounds s) ∨
    (s.err = 0 ∧ (1 ≤ len.toNat ∧ len.toNat ≤ 32) ∧ off.toNat + len.toNat ≤ 6 * s.cnt.toNat ∧
      ∃ v, memRead s.u off.toNat len.toNat = some v ∧
        t = respond (okResponse (BitVec.ofNat 32 v)) s) := by
  unfold execXtr at h
  by_cases he : s.err = 0
  · rw [unlessAborted_of_no_err _ he] at h
    by_cases hl : lenServed (lenValue len) = true
    · simp only [if_pos hl] at h
      rw [lenServed_iff] at hl
      rcases readField_next h with ⟨hb, v, hv, rfl⟩ | ⟨hb, rfl⟩
      · exact .inr (.inr (.inr ⟨he, hl, hb, v, hv, rfl⟩))
      · exact .inr (.inr (.inl ⟨he, hl, hb, rfl⟩))
    · simp only [if_neg hl] at h
      rw [lenServed_iff] at hl
      cases h; exact .inr (.inl ⟨he, hl, rfl⟩)
  · rw [unlessAborted_of_err _ he] at h; cases h; exact .inl ⟨he, rfl⟩

/-- All that XMT can answer (R98). -/
theorem execXmt_next {s t : State} (h : execXmt s = .next t) :
    (s.err ≠ 0 ∧ t = raise .messageAborted s) ∨
    (s.err = 0 ∧ s.cnt = 0 ∧ t = raise .outOfBounds s) ∨
    (s.err = 0 ∧ s.cnt ≠ 0 ∧ ∃ v, memRead s.u 0 6 = some v ∧
      t = respond (okResponse (BitVec.ofNat 32 v)) s) := by
  unfold execXmt at h
  by_cases he : s.err = 0
  · rw [unlessAborted_of_no_err _ he] at h
    simp only [xmtOff, xmtLen] at h
    rcases readField_next h with ⟨hb, v, hv, rfl⟩ | ⟨hb, rfl⟩
    · refine .inr (.inr ⟨he, fun hz => ?_, v, hv, rfl⟩)
      rw [hz] at hb; simp at hb
    · exact .inr (.inl ⟨he, BitVec.eq_of_toNat_eq (by simp; omega), rfl⟩)
  · rw [unlessAborted_of_err _ he] at h; cases h; exact .inl ⟨he, rfl⟩

/-- All that WCTL can answer (R114). -/
theorem execWctl_next {s t : State} {f : Bool} (h : execWctl f s = .next t) :
    (s.err ≠ 0 ∧ t = raise .messageAborted s) ∨
    (s.err = 0 ∧ s.cnt ≠ 0 ∧ t = raise .ctlLocked s) ∨
    (s.err = 0 ∧ s.cnt = 0 ∧ t = respond (okResponse 0) { s with fixf := f }) := by
  unfold execWctl at h
  by_cases he : s.err = 0
  · rw [unlessAborted_of_no_err _ he] at h
    by_cases hc : s.cnt = 0
    · simp only [if_neg (not_not.mpr hc)] at h; cases h; exact .inr (.inr ⟨he, hc, rfl⟩)
    · simp only [if_pos hc] at h; cases h; exact .inr (.inl ⟨he, hc, rfl⟩)
  · rw [unlessAborted_of_err _ he] at h; cases h; exact .inl ⟨he, rfl⟩

/-- All that a command can answer: a fault of its own, or its one effect. -/
theorem exec_next {i : Instr} {s t : State} (h : exec i s = .next t) :
    (∃ c, c ≠ .illegalCommand ∧ (c = .messageAborted ↔ s.err ≠ 0) ∧ i ≠ .clr ∧ i ≠ .rdst ∧
      t = raise c s) ∨
    (i = .clr ∧ t = respond (okResponse 0) (clearMessage s)) ∨
    (i = .rdst ∧ t = respond (okResponse (statusWord s)) s) ∨
    (s.err = 0 ∧ ((∃ len off, i = .xtr len off) ∨ i = .xmt) ∧ ∃ v, t = respond (okResponse v) s) ∨
    (s.err = 0 ∧ s.cnt = 0 ∧ ∃ f, i = .wctl f ∧ t = respond (okResponse 0) { s with fixf := f }) ∨
    (s.err = 0 ∧ s.cnt.toNat < s.params.cap ∧ ∃ c v, i = .push c ∧
      alpha s.params c s.fixf = some v ∧ t = finishPush c v
        { s with u := Memory.write s.u (appendAddress s) v, cnt := s.cnt + 1 }) := by
  cases i with
  | clr => cases h; exact .inr (.inl ⟨rfl, rfl⟩)
  | rdst => cases h; exact .inr (.inr (.inl ⟨rfl, rfl⟩))
  | push c =>
    rcases execPush_next h with ⟨he, rfl⟩ | ⟨he, -, rfl⟩ | ⟨he, -, -, rfl⟩ | ⟨he, hc, v, hv, rfl⟩
    · exact .inl ⟨_, by decide, ⟨fun _ => he, fun _ => rfl⟩, by simp, by simp, rfl⟩
    · exact .inl ⟨_, by decide, by simp [he], by simp, by simp, rfl⟩
    · exact .inl ⟨_, by decide, by simp [he], by simp, by simp, rfl⟩
    · exact .inr (.inr (.inr (.inr (.inr ⟨he, hc, c, v, rfl, hv, rfl⟩))))
  | xtr len off =>
    rcases execXtr_next h with ⟨he, rfl⟩ | ⟨he, -, rfl⟩ | ⟨he, -, -, rfl⟩ | ⟨he, -, -, v, -, rfl⟩
    · exact .inl ⟨_, by decide, ⟨fun _ => he, fun _ => rfl⟩, by simp, by simp, rfl⟩
    · exact .inl ⟨_, by decide, by simp [he], by simp, by simp, rfl⟩
    · exact .inl ⟨_, by decide, by simp [he], by simp, by simp, rfl⟩
    · exact .inr (.inr (.inr (.inl ⟨he, .inl ⟨len, off, rfl⟩, _, rfl⟩)))
  | xmt =>
    rcases execXmt_next h with ⟨he, rfl⟩ | ⟨he, -, rfl⟩ | ⟨he, -, v, -, rfl⟩
    · exact .inl ⟨_, by decide, ⟨fun _ => he, fun _ => rfl⟩, by simp, by simp, rfl⟩
    · exact .inl ⟨_, by decide, by simp [he], by simp, by simp, rfl⟩
    · exact .inr (.inr (.inr (.inl ⟨he, .inr rfl, _, rfl⟩)))
  | wctl f =>
    rcases execWctl_next h with ⟨he, rfl⟩ | ⟨he, -, rfl⟩ | ⟨he, hc, rfl⟩
    · exact .inl ⟨_, by decide, ⟨fun _ => he, fun _ => rfl⟩, by simp, by simp, rfl⟩
    · exact .inl ⟨_, by decide, by simp [he], by simp, by simp, rfl⟩
    · exact .inr (.inr (.inr (.inr (.inl ⟨he, hc, f, rfl, rfl⟩))))

end Sys2Proof.Machine
end

