-- ==== Sys2Proof/Laws/Step.lean ====
section
/-! SUPPORT. What a step can do, said once. -/

namespace Sys2Proof.Machine

theorem step_idle {s : State} (h : s.inputs = []) : step s = .next s := by
  unfold step; rw [h]

theorem step_reset {s : State} {rest : List HostEvent} (h : s.inputs = .reset :: rest) :
    step s = .next (takeReset { s with inputs := rest }) := by
  unfold step; rw [h]

theorem step_legal {s : State} {w : Word} {rest : List HostEvent} {i : Instr}
    (h : s.inputs = .command w :: rest) (hd : decode w = .ok i) :
    step s = exec i { s with inputs := rest } := by
  unfold step; rw [h]; simp only [perform, hd]

theorem step_illegal {s : State} {w : Word} {rest : List HostEvent} {r : IllegalReason}
    (h : s.inputs = .command w :: rest) (hd : decode w = .error r) :
    step s = .next (raise .illegalCommand { s with inputs := rest }) := by
  unfold step; rw [h]; simp only [perform, hd, execIllegal]

/-- All that a step can answer. -/
theorem step_next {s t : State} (h : step s = .next t) :
    (s.inputs = [] ∧ t = s) ∨
    (∃ rest, s.inputs = .reset :: rest ∧ t = takeReset { s with inputs := rest }) ∨
    (∃ w rest r, s.inputs = .command w :: rest ∧ decode w = .error r ∧
      t = raise .illegalCommand { s with inputs := rest }) ∨
    (∃ w rest i, s.inputs = .command w :: rest ∧ decode w = .ok i ∧
      exec i { s with inputs := rest } = .next t) := by
  rcases hi : s.inputs with _ | ⟨e, rest⟩
  · rw [step_idle hi] at h; cases h; exact .inl ⟨rfl, rfl⟩
  · cases e with
    | reset => rw [step_reset hi] at h; cases h; exact .inr (.inl ⟨rest, rfl, rfl⟩)
    | command w =>
      cases hd : decode w with
      | error r =>
        rw [step_illegal hi hd] at h; cases h; exact .inr (.inr (.inl ⟨w, rest, r, rfl, hd, rfl⟩))
      | ok i =>
        rw [step_legal hi hd] at h; exact .inr (.inr (.inr ⟨w, rest, i, rfl, hd, h⟩))

end Sys2Proof.Machine
end

