-- ==== Sys2Proof/Laws/Safety.lean ====
section
/-! SUPPORT. The words of Safety.lean in terms of the operations, the constraint on the parameters as
numbers, and the shape of runs. -/

namespace Sys2Proof.Machine

/-- What `raise` does is what R153 says of the fault with its code. -/
theorem raise_takesFault (c : BlockFault) (s : State) : s.TakesFault (raise c s) c.code := by
  refine ⟨⟨rfl, rfl⟩, ?_, rfl, rfl, rfl, rfl, rfl⟩
  simp only [raise_err, ne_eq, BlockFault.code_eq_seven]

theorem respond_readOk (v : Nat) (s : State) :
    s.ReadOk (respond (okResponse (BitVec.ofNat 32 v)) s) v :=
  ⟨⟨rfl, rfl, rfl, rfl, rfl, rfl⟩, rfl, rfl⟩

theorem State.SameBlock.refl (s : State) : s.SameBlock s := ⟨rfl, rfl, rfl, rfl, rfl, rfl⟩

theorem State.SameBlock.trans {s t r : State} (h : s.SameBlock t) (h' : t.SameBlock r) :
    s.SameBlock r := by
  obtain ⟨h1, h2, h3, h4, h5, h6⟩ := h
  obtain ⟨g1, g2, g3, g4, g5, g6⟩ := h'
  exact ⟨g1.trans h1, g2.trans h2, g3.trans h3, g4.trans h4, g5.trans h5, g6.trans h6⟩

/-- R5 as inequalities. -/
theorem params_wf_iff (p : Params) :
    p.wf = true ↔ 28 ≤ p.cap ∧ p.cap ≤ 10922 ∧
      ¬(0x30 ≤ p.ch40.toNat ∧ p.ch40.toNat ≤ 0x57) ∧ ¬(0x61 ≤ p.ch40.toNat ∧ p.ch40.toNat ≤ 0x77) := by
  simp [Params.wf]; omega

/-- In a state that meets the invariant every field inside the address map can be read (R13). -/
theorem State.Inv.readable {s : State} (h : s.Inv) {off len : Nat} (hb : off + len ≤ 6 * s.cnt.toNat) :
    ∀ i, i < len → (Memory.read s.u ((off + i) / 6)).isSome := by
  intro i hi
  rw [h.cells]
  exact decide_eq_true (by omega)

@[simp] theorem given_u (s : State) (es : List HostEvent) : (s.given es).u = s.u := rfl
@[simp] theorem given_cnt (s : State) (es : List HostEvent) : (s.given es).cnt = s.cnt := rfl
@[simp] theorem given_err (s : State) (es : List HostEvent) : (s.given es).err = s.err := rfl
@[simp] theorem given_fseen (s : State) (es : List HostEvent) : (s.given es).fseen = s.fseen := rfl
@[simp] theorem given_fixf (s : State) (es : List HostEvent) : (s.given es).fixf = s.fixf := rfl
@[simp] theorem given_params (s : State) (es : List HostEvent) : (s.given es).params = s.params := rfl
@[simp] theorem given_inputs (s : State) (es : List HostEvent) : (s.given es).inputs = es := rfl
@[simp] theorem given_responses (s : State) (es : List HostEvent) :
    (s.given es).responses = s.responses := rfl
@[simp] theorem given_given (s : State) (es fs : List HostEvent) :
    (s.given es).given fs = s.given fs := rfl
theorem given_self (s : State) : s.given s.inputs = s := rfl

@[simp] theorem run_zero (s : State) : run 0 s = .next s := rfl

theorem run_of_step {k : Nat} {s t : State} (h : step s = .next t) : run (k + 1) s = run k t := by
  rw [run, h]

/-- A run of `m + n` steps is a run of `m` and then a run of `n`. -/
theorem run_append {m n : Nat} {s t r : State} (h : run m s = .next t) (h' : run n t = .next r) :
    run (m + n) s = .next r := by
  induction m generalizing s with
  | zero => cases h; simpa using h'
  | succ m ih =>
    rw [run] at h
    rw [show m + 1 + n = m + n + 1 by omega, run]
    cases hs : step s with
    | next u => rw [hs] at h; exact ih h
    | fault e => rw [hs] at h; cases h
    | refused e => rw [hs] at h; cases h

theorem given_of_inputs {s : State} {es : List HostEvent} (h : s.inputs = es) : s.given es = s := by
  subst h; rfl

/-- A cell holds a value exactly if it is listed. -/
theorem Memory.read_isSome_iff (m : Memory) (a : Nat) :
    (Memory.read m a).isSome = true ↔ a ∈ m.map Prod.fst := by
  induction m with
  | nil => simp
  | cons c m ih =>
    obtain ⟨b, v⟩ := c
    rw [Memory.read_cons, List.map_cons, List.mem_cons]
    by_cases h : b = a
    · simp [h]
    · rw [if_neg h, ih]; simp [Ne.symm h]

theorem Memory.mem_of_read {m : Memory} {a : Nat} {v : Unit6} (h : Memory.read m a = some v) :
    (a, v) ∈ m := by
  induction m with
  | nil => simp at h
  | cons c m ih =>
    obtain ⟨b, x⟩ := c
    rw [Memory.read_cons] at h
    split at h
    · cases h; subst a; exact List.mem_cons_self
    · exact List.mem_cons_of_mem _ (ih h)

/-- The invariant from facts that can be decided of a concrete state. -/
theorem State.inv_of_listed {s : State} (hp : s.params.wf = true) (hc : s.cnt.toNat ≤ s.params.cap)
    (hu : s.u.map Prod.fst = List.range s.cnt.toNat) (he : s.err.toNat ≤ 6)
    (h46 : s.fixf = false → ∀ c ∈ s.u, c.2 ≠ 46) (hf : s.fseen = true → 1 ≤ s.cnt.toNat) : s.Inv := by
  have hm : ∀ a, a ∈ s.u.map Prod.fst ↔ a < s.cnt.toNat := fun a => by rw [hu, List.mem_range]
  refine ⟨hp, hc, (Memory.wf_iff _ _).mpr ⟨?_, fun c hmem => ?_⟩, fun a => ?_, he, ?_, hf⟩
  · have := List.pairwise_lt_range (n := s.cnt.toNat)
    rw [← hu, List.pairwise_map] at this
    exact this
  · have := (hm c.1).mp (List.mem_map_of_mem hmem)
    omega
  · rw [Bool.eq_iff_iff, Memory.read_isSome_iff, hm, decide_eq_true_iff]
  · exact fun h a hr => h46 h _ (Memory.mem_of_read hr) rfl

/-- The invariant does not look at the command port. -/
theorem State.Inv.given {s : State} (h : s.Inv) (es : List HostEvent) : (s.given es).Inv :=
  ⟨h.params_wf, h.cnt_le_cap, h.memory_wf, h.cells, h.err_le, h.no46, h.fseen_cnt⟩

theorem State.Inv.respond {s : State} (h : s.Inv) (r : Response) : (respond r s).Inv :=
  ⟨h.params_wf, h.cnt_le_cap, h.memory_wf, h.cells, h.err_le, h.no46, h.fseen_cnt⟩

end Sys2Proof.Machine
end

