-- ==== Sys2Proof/Laws/Alphabet.lean ====
section
/-! SUPPORT. The alphabet and its inverse in numbers. -/

namespace Sys2Proof.Machine

theorem eq_codeOfF_iff (c : CharCode) : c = codeOfF ↔ c.toNat = 0x66 := by
  rw [← BitVec.toNat_inj]; rfl

/-- The four ways a character of a legal chip decodes (R71). -/
theorem alpha_eq_some_iff {p : Params} (hp : p.wf = true) (c : CharCode) (f : Bool) (v : Unit6) :
    alpha p c f = some v ↔
      (0x30 ≤ c.toNat ∧ c.toNat ≤ 0x57 ∧ v.toNat = c.toNat - 0x30) ∨
      (c.toNat = p.ch40.toNat ∧ v.toNat = 40) ∨
      (c.toNat = 0x66 ∧ f = false ∧ v.toNat = 45) ∨
      (0x61 ≤ c.toNat ∧ c.toNat ≤ 0x77 ∧ ¬(c.toNat = 0x66 ∧ f = false) ∧ v.toNat = c.toNat - 56) := by
  have h := (params_wf_iff p).mp hp
  have hv : ∀ n, n < 64 → (some (BitVec.ofNat 6 n) = some v ↔ v.toNat = n) := fun n hn => by
    rw [Option.some_inj, ← BitVec.toNat_inj, BitVec.toNat_ofNat, Nat.mod_eq_of_lt hn, eq_comm]
  unfold alpha
  simp only [eq_codeOfF_iff]
  have h40 : c = p.ch40 ↔ c.toNat = p.ch40.toNat := BitVec.toNat_inj.symm
  simp only [h40]
  split_ifs with h1 h2 h3 h4
  · rw [hv _ (by omega)]; omega
  · rw [show (40 : Unit6) = BitVec.ofNat 6 40 from rfl, hv _ (by omega)]; omega
  · rw [show (45 : Unit6) = BitVec.ofNat 6 45 from rfl, hv _ (by omega)]; simp only [h3]; simp; omega
  · rw [hv _ (by omega)]
    constructor
    · intro hn; exact .inr (.inr (.inr ⟨h4.1, h4.2, h3, by omega⟩))
    · rintro (hn | hn | ⟨hn, hf, -⟩ | hn)
      · omega
      · omega
      · exact absurd ⟨hn, hf⟩ h3
      · omega
  · simp only [false_iff]
    rintro (hn | hn | ⟨hn, hf, -⟩ | hn)
    · omega
    · omega
    · exact h3 ⟨hn, hf⟩
    · omega

/-- The codes outside the alphabet of a chip (R72). -/
theorem alpha_eq_none_iff (p : Params) (c : CharCode) (f : Bool) :
    alpha p c f = none ↔
      ¬(0x30 ≤ c.toNat ∧ c.toNat ≤ 0x57) ∧ c ≠ p.ch40 ∧ ¬(0x61 ≤ c.toNat ∧ c.toNat ≤ 0x77) := by
  unfold alpha
  simp only [eq_codeOfF_iff]
  split_ifs with h1 h2 h3 h4 <;> simp_all

/-- What armoring a value gives (R77). -/
theorem armor_eq_some_iff (p : Params) (v : Unit6) (f : Bool) (c : CharCode) :
    armor p v f = some c ↔
      (v.toNat ≤ 39 ∧ c.toNat = 0x30 + v.toNat) ∨
      (v.toNat = 40 ∧ c.toNat = p.ch40.toNat) ∨
      (41 ≤ v.toNat ∧ ¬(v.toNat = 46 ∧ f = false) ∧ c.toNat = v.toNat + 56) := by
  have hv := v.isLt
  have hc : ∀ n, n < 256 → (some (BitVec.ofNat 8 n) = some c ↔ c.toNat = n) := fun n hn => by
    rw [Option.some_inj, ← BitVec.toNat_inj, BitVec.toNat_ofNat, Nat.mod_eq_of_lt hn, eq_comm]
  unfold armor
  split_ifs with h1 h2 h3
  · rw [hc _ (by omega)]; omega
  · rw [Option.some_inj, ← BitVec.toNat_inj, eq_comm]; omega
  · simp only [false_iff]
    rintro (hn | hn | ⟨-, hn, -⟩)
    · omega
    · omega
    · exact hn h3
  · rw [hc _ (by omega)]
    constructor
    · intro hn; exact .inr (.inr ⟨by omega, h3, by omega⟩)
    · rintro (hn | hn | hn) <;> omega

end Sys2Proof.Machine
end

