-- ==== Sys2Proof/Laws/Decode.lean ====
section
/-! SUPPORT. The fields of an encoded word, and what decoding a word says of its fields. -/

namespace Sys2Proof

theorem getLsbD_slice (w : Word) (lo n i : Nat) :
    (slice w lo n).getLsbD i = (decide (i < n) && w.getLsbD (lo + i)) := by
  simp [slice]

theorem slice_eq_zero_iff (w : Word) (lo n : Nat) :
    (slice w lo n == 0) = true ↔ ∀ i, i < n → w.getLsbD (lo + i) = false := by
  rw [beq_iff_eq]
  constructor
  · intro h i hi
    have hb : (slice w lo n).getLsbD i = (0 : BitVec n).getLsbD i := by rw [h]
    rw [getLsbD_slice] at hb
    simpa [hi] using hb
  · intro h
    exact BitVec.eq_of_getLsbD_eq fun i hi => by simp [getLsbD_slice, h i hi]

/-- The bits of an encoded PUSH (R52). -/
theorem getLsbD_encode_push (c : CharCode) (i : Nat) :
    (encode (.push c)).getLsbD i =
      if i < 8 then c.getLsbD i else if i < 28 then false else (0x2#4).getLsbD (i - 28) := by
  show BitVec.getLsbD (w := 4 + 20 + 8) (0x2#4 ++ 0#20 ++ c) i = _
  rw [BitVec.getLsbD_append, BitVec.getLsbD_append]
  split
  · rfl
  · by_cases h : i < 28
    · rw [if_pos h, if_pos (by omega)]; simp
    · rw [if_neg h, if_neg (by omega)]; congr 1

/-- The bits of an encoded XTR (R53). -/
theorem getLsbD_encode_xtr (len : LenField) (off : OffField) (i : Nat) :
    (encode (.xtr len off)).getLsbD i =
      if i < 16 then off.getLsbD i else if i < 22 then false
      else if i < 28 then len.getLsbD (i - 22) else (0x3#4).getLsbD (i - 28) := by
  show BitVec.getLsbD (w := 4 + 6 + 6 + 16) (0x3#4 ++ len ++ 0#6 ++ off) i = _
  rw [BitVec.getLsbD_append, BitVec.getLsbD_append, BitVec.getLsbD_append]
  split
  · rfl
  · by_cases h : i < 22
    · rw [if_pos h, if_pos (by omega)]; simp
    · rw [if_neg h, if_neg (by omega)]
      by_cases h' : i < 28
      · rw [if_pos h', if_pos (by omega)]; congr 1
      · rw [if_neg h', if_neg (by omega)]; congr 1

/-- OP of a command (R59). -/
def opcodeOf : Instr → BitVec 4
  | .clr => 1
  | .push _ => 2
  | .xtr _ _ => 3
  | .xmt => 4
  | .rdst => 5
  | .wctl _ => 6

/-- OP of each encoded word (R59). -/
theorem opcode_encode (i : Instr) : slice (encode i) 28 4 = opcodeOf i := by
  cases i with
  | wctl f => cases f <;> decide
  | push c =>
    refine BitVec.eq_of_getLsbD_eq fun i hi => ?_
    rw [getLsbD_slice, getLsbD_encode_push]
    interval_cases i <;> simp [opcodeOf]
  | xtr len off =>
    refine BitVec.eq_of_getLsbD_eq fun i hi => ?_
    rw [getLsbD_slice, getLsbD_encode_xtr]
    interval_cases i <;> simp [opcodeOf]
  | _ => decide

/-- The rows of the opcode map differ in OP (R59). -/
theorem mnemonic_of_opcode (i : Instr) :
    ∀ r ∈ opcodeTable, slice r.pattern 28 4 = opcodeOf i → r.mnemonic = i.mnemonic := by
  cases i <;> simp only [opcodeOf, Instr.mnemonic] <;> decide

theorem mask_covers_opcode : ∀ r ∈ opcodeTable, slice r.mask 28 4 = 0xF := by decide

theorem row_of_mnemonic :
    ∀ a ∈ opcodeTable, ∀ b ∈ opcodeTable, a.mnemonic = b.mnemonic → a = b := by decide

/-- A word with the masked bits of a row whose mask covers OP has the row's OP. -/
theorem opcode_of_names {r : OpcodeRow} {w : Word} (hm : slice r.mask 28 4 = 0xF)
    (h : r.names w = true) : slice w 28 4 = slice r.pattern 28 4 := by
  have hw : w &&& r.mask = r.pattern := by simpa [OpcodeRow.names] using h
  refine BitVec.eq_of_getLsbD_eq fun i hi => ?_
  have hb : r.mask.getLsbD (28 + i) = true := by
    have := congrArg (fun v => v.getLsbD i) hm
    simp only [getLsbD_slice, hi, decide_true, Bool.true_and] at this
    rw [this]; interval_cases i <;> rfl
  rw [getLsbD_slice, getLsbD_slice, ← hw, BitVec.getLsbD_and, hb, Bool.and_true]

end Sys2Proof
end

