-- ==== Sys2Proof/Laws/Forms.lean ====
section
/-! SUPPORT. The recursions of the whole-stream value and of a tiling as equations. -/

namespace Sys2Proof.Machine

@[simp] theorem unitsValue_zero (m : Memory) (a : Nat) : unitsValue m a 0 = some 0 := rfl

theorem unitsValue_succ (m : Memory) (a n : Nat) :
    unitsValue m a (n + 1) =
      (unitsValue m a n).bind fun x => (Memory.read m (a + n)).map fun v => 64 * x + v.toNat := by
  rw [unitsValue]; cases unitsValue m a n <;> cases Memory.read m (a + n) <;> rfl

@[simp] theorem readTiling_nil (m : Memory) (k : Nat) : readTiling m k [] = some 0 := rfl

theorem readTiling_cons (m : Memory) (k n : Nat) (ns : List Nat) :
    readTiling m k (n :: ns) =
      (memRead m k n).bind fun v => (readTiling m (k + n) ns).map fun x => v * 2 ^ ns.sum + x := by
  rw [readTiling]; cases memRead m k n <;> cases readTiling m (k + n) ns <;> rfl

end Sys2Proof.Machine
end

