-- ==== Sys2Proof/Laws/PerInstr.lean ====
section
/-! SUPPORT. Statements about every command as syntax, one lemma a constructor. -/

/-! The family OwnRow: the encoded word of a command is named by its own row of the opcode map (spec
30_encoding.md R59) and by no other. -/

def Sys2Proof.Laws.OwnRow.Statement (i : Sys2Proof.Instr) : Prop :=
  ∀ r ∈ Sys2Proof.opcodeTable, r.names (Sys2Proof.encode i) = true ↔ r.mnemonic = i.mnemonic

namespace Sys2Proof.Laws.OwnRow

/-- The rows of another opcode do not name the word; the own row is left to prove. -/
theorem of_own {i : Instr} {r : OpcodeRow} (hr : r ∈ opcodeTable) (hi : r.mnemonic = i.mnemonic)
    (h : r.names (encode i) = true) : Statement i := by
  intro r' hr'
  refine ⟨fun hn => ?_, fun hm => ?_⟩
  · have ho := opcode_of_names (mask_covers_opcode r' hr') hn
    exact mnemonic_of_opcode i r' hr' (ho.symm.trans (opcode_encode i))
  · rw [row_of_mnemonic r' hr' r hr (hm.trans hi.symm)]; exact h

theorem clr : Statement .clr :=
  of_own (r := ⟨"CLR", 0xFFFFFFFF, 0x10000000⟩) (by decide) rfl (by decide)

theorem push (char : CharCode) : Statement (.push char) := by
  refine of_own (r := ⟨"PUSH", 0xFFFFFF00, 0x20000000⟩) (by decide) rfl ?_
  refine decide_eq_true (BitVec.eq_of_getLsbD_eq fun i hi => ?_)
  rw [BitVec.getLsbD_and, getLsbD_encode_push]
  interval_cases i <;> simp

theorem xtr (len : LenField) (off : OffField) : Statement (.xtr len off) := by
  refine of_own (r := ⟨"XTR", 0xF03F0000, 0x30000000⟩) (by decide) rfl ?_
  refine decide_eq_true (BitVec.eq_of_getLsbD_eq fun i hi => ?_)
  rw [BitVec.getLsbD_and, getLsbD_encode_xtr]
  interval_cases i <;> simp

theorem xmt : Statement .xmt :=
  of_own (r := ⟨"XMT", 0xFFFFFFFF, 0x40000000⟩) (by decide) rfl (by decide)

theorem rdst : Statement .rdst :=
  of_own (r := ⟨"RDST", 0xFFFFFFFF, 0x50000000⟩) (by decide) rfl (by decide)

theorem wctl (f : Bool) : Statement (.wctl f) :=
  of_own (r := ⟨"WCTL", 0xFFFFFFFE, 0x60000000⟩) (by decide) rfl (by cases f <;> decide)

end Sys2Proof.Laws.OwnRow
end

