-- ==== Sys2Proof/Tests/Slice0.lean ====
section
/-! SUPPORT. The model's own tests and the witnesses of the statements' hypotheses. Expected values are
those of spec 95_test_vectors.md, 96_test_vectors_push_xtr.md and the rules' worked examples; each test
names its source. -/

namespace Sys2Proof.Tests

open Sys2Proof.Machine

/-! Helpers. -/

/-- This hardware with the smallest legal buffer, as in 95 section 7.1. -/
def small : Params := { cap := 28, ch40 := 0x27, fixfReset := false }

/-- A state with these units. -/
def holding (p : Params) (units : List Nat) (err : BitVec 3) (fseen fixf : Bool) : State :=
  { u := (List.range units.length).zip (units.map (BitVec.ofNat 6)),
    cnt := BitVec.ofNat 16 units.length, err := err, fseen := fseen, fixf := fixf,
    params := p, inputs := [], responses := [] }

/-- What a run table of the spec shows after a command. -/
structure Row where
  response : Option Response
  cnt : Nat
  err : Nat
  fseen : Bool
  fixf : Bool
  deriving DecidableEq, Repr

def after : Result → Option Row
  | .next t => some ⟨t.lastResponse, t.cnt.toNat, t.err.toNat, t.fseen, t.fixf⟩
  | _ => none

/-- The cells after a command. -/
def cellsAfter : Result → Option (List (Nat × Nat))
  | .next t => some (t.u.map fun c => (c.1, c.2.toNat))
  | _ => none

def ok (v : Word) : Option Response := some { f := false, code := 0, val := v }

def failed (c : BitVec 3) : Option Response := some { f := true, code := c, val := 0 }

/-- The buffer of 96 section 2.4, `DECODE "15:Wa?w@"`. -/
def eight : State := holding Params.hardware [1, 5, 10, 39, 41, 15, 63, 16] 0 false false

/-- The aborted state of 95 section 7.2: CNT = 1, ERR = 1. -/
def aborted : State := holding Params.hardware [1] 1 false false

/-- The full buffer of 95 section 7.1, CAP = 28. -/
def full : State := holding small (List.replicate 28 63) 0 false false

/-- The payload of 95 program P1, `11mg=5@000000000000000000000`. -/
def payloadP1 : List CharCode :=
  [0x31, 0x31, 0x6D, 0x67, 0x3D, 0x35, 0x40] ++ List.replicate 21 0x30

/-- The buffer of P1. -/
def bufferP1 : State :=
  holding Params.hardware ([1, 1, 53, 47, 13, 5, 16] ++ List.replicate 21 0) 0 false false

/-- The invariant of these states, decided. -/
theorem inv_of_decided {s : State}
    (h : (s.params.wf && decide (s.cnt.toNat ≤ s.params.cap) &&
      decide (s.u.map Prod.fst = List.range s.cnt.toNat) && decide (s.err.toNat ≤ 6) &&
      (s.fixf || s.u.all fun c => c.2 != 46) && (!s.fseen || decide (1 ≤ s.cnt.toNat))) = true) :
    s.Inv := by
  simp only [Bool.and_eq_true, decide_eq_true_eq, Bool.or_eq_true, List.all_eq_true, bne_iff_ne,
    Bool.not_eq_true'] at h
  obtain ⟨⟨⟨⟨⟨h1, h2⟩, h3⟩, h4⟩, h5⟩, h6⟩ := h
  exact State.inv_of_listed h1 h2 h3 h4 (fun hf => h5.resolve_left (by simp [hf]))
    fun hf => h6.resolve_left (by simp [hf])

theorem inv_eight : eight.Inv := inv_of_decided (by decide)

theorem inv_aborted : aborted.Inv := inv_of_decided (by decide)

theorem inv_full : full.Inv := inv_of_decided (by decide +kernel)

theorem inv_bufferP1 : bufferP1.Inv := inv_of_decided (by decide +kernel)

theorem inv_reset : State.reset.Inv := inv_of_decided (by decide)

/-! The checks of WellFormed.lean refuse what is ill-formed. -/

/-- R5: 28 and 10922 are legal capacities, 27 and 10923 are not. -/
theorem test_params_cap :
    ({ small with cap := 28 } : Params).wf = true ∧ ({ small with cap := 10922 } : Params).wf = true ∧
    ({ small with cap := 27 } : Params).wf = false ∧
    ({ small with cap := 10923 } : Params).wf = false := by decide

/-- R5: 0x27 and 0x60 are legal values of CH40, the ends of the two forbidden ranges are not. -/
theorem test_params_ch40 :
    ({ small with ch40 := 0x27 } : Params).wf = true ∧
    ({ small with ch40 := 0x60 } : Params).wf = true ∧
    ({ small with ch40 := 0x30 } : Params).wf = false ∧
    ({ small with ch40 := 0x57 } : Params).wf = false ∧
    ({ small with ch40 := 0x61 } : Params).wf = false ∧
    ({ small with ch40 := 0x77 } : Params).wf = false := by decide

/-- 96 section 3.2: illegal words, one or more for each row of the opcode map. -/
theorem test_word_ill_formed :
    Word.wf 0x10000001 = false ∧ Word.wf 0x28000031 = false ∧ Word.wf 0x31810000 = false ∧
    Word.wf 0x40000006 = false ∧ Word.wf 0x58000000 = false ∧ Word.wf 0x60000003 = false ∧
    Word.wf 0x0FFFFFFF = false ∧ Word.wf 0x70000000 = false ∧ Word.wf 0x80000000 = false := by
  decide

/-- 96 section 3.2: legal words. -/
theorem test_word_well_formed :
    Word.wf 0x10000000 = true ∧ Word.wf 0x200000FF = true ∧ Word.wf 0x3FC0FFFF = true ∧
    Word.wf 0x40000000 = true ∧ Word.wf 0x50000000 = true ∧ Word.wf 0x60000001 = true := by decide

/-! Decoding, the words written out bit by bit from the formats of R51 to R54. -/

theorem test_decode_clr : decode 0b00010000000000000000000000000000 = .ok .clr := by decide

/-- OP = 0x2, CHAR = 0x31. -/
theorem test_decode_push : decode 0b00100000000000000000000000110001 = .ok (.push 0x31) := by decide

/-- OP = 0x3, LEN = 30 = 011110, OFF = 8 (R63's worked example). -/
theorem test_decode_xtr :
    decode 0b00110111100000000000000000001000 = .ok (.xtr 30 8) := by decide

theorem test_decode_xmt : decode 0b01000000000000000000000000000000 = .ok .xmt := by decide

theorem test_decode_rdst : decode 0b01010000000000000000000000000000 = .ok .rdst := by decide

theorem test_decode_wctl : decode 0b01100000000000000000000000000001 = .ok (.wctl true) := by decide

/-- The host's numbering of the bits is the word's own; a number wider than a word is refused. -/
theorem test_decode_table_word :
    decodeTableWord 32 0x37800008 = some (.xtr 30 8) ∧ decodeTableWord 32 0x10000001 = none ∧
    decodeTableWord 40 0x0110000000 = none := by decide

/-- 96 section 3.1. -/
theorem test_encode :
    encode (.xtr 32 0xFFFF) = 0x3800FFFF ∧ encode (.xtr 19 149) = 0x34C00095 ∧
    encode (.push 0x27) = 0x20000027 ∧ encode (.wctl true) = 0x60000001 := by decide

/-! One step of each command. -/

/-- R110, worked example: CLR in the state CNT = 2, ERR = 1. -/
theorem test_clr_aborted :
    after (exec .clr (holding Params.hardware [1, 5] 1 false false)) =
      some ⟨ok 0, 0, 0, false, false⟩ := by decide

/-- 95 section 5 row 15: CLR keeps FIXF and clears FSEEN, and the cells lose their values. -/
theorem test_clr_keeps_fixf :
    after (exec .clr (holding Params.hardware [46] 6 true true)) = some ⟨ok 0, 0, 0, false, true⟩ ∧
    cellsAfter (exec .clr eight) = some [] := by decide

/-- 96 section 2.2: 'f' under the corrected table, 40, and a code with bit 7 set. -/
theorem test_push_codes :
    after (exec (.push 0x66) (holding Params.hardware [] 0 false true)) =
      some ⟨ok 46, 1, 0, true, true⟩ ∧
    after (exec (.push 0x27) State.reset) = some ⟨ok 40, 1, 0, false, false⟩ ∧
    after (exec (.push 0xB1) State.reset) = some ⟨failed 1, 0, 1, false, false⟩ := by decide

/-- 95 section 7.1: the full buffer, and the invalid character reported first. -/
theorem test_push_full :
    after (exec (.push 0x30) full) = some ⟨failed 4, 28, 4, false, false⟩ ∧
    after (exec (.push 0x58) full) = some ⟨failed 1, 28, 1, false, false⟩ := by decide +kernel

/-- 96 section 4.1: seven units and bit 31, and to the last bit of the buffer. -/
theorem test_xtr_wide :
    after (exec (.xtr 32 5) eight) = some ⟨ok 0x8A54F49F, 8, 0, false, false⟩ ∧
    after (exec (.xtr 31 17) eight) = some ⟨ok 0x27A4FFD0, 8, 0, false, false⟩ := by decide +kernel

/-- 96 section 4.1: one bit too many, no wrap at 16 bits, and the length before the bounds. -/
theorem test_xtr_faults :
    after (exec (.xtr 32 17) eight) = some ⟨failed 2, 8, 2, false, false⟩ ∧
    after (exec (.xtr 32 65535) eight) = some ⟨failed 2, 8, 2, false, false⟩ ∧
    after (exec (.xtr 33 0) eight) = some ⟨failed 3, 8, 3, false, false⟩ ∧
    after (exec (.xtr 0 65535) eight) = some ⟨failed 3, 8, 3, false, false⟩ := by decide +kernel

/-- R98 and 95 section 1.3, with the empty buffer of 96 section 4.1. -/
theorem test_xmt :
    after (exec .xmt eight) = some ⟨ok 1, 8, 0, false, false⟩ ∧
    after (exec .xmt State.reset) = some ⟨failed 2, 0, 2, false, false⟩ := by decide

/-- 95 section 5 row 13: every field of STATUS, in the aborted state. -/
theorem test_rdst :
    after (exec .rdst (holding Params.hardware [46] 6 true true)) =
      some ⟨ok 0x001E0001, 1, 6, true, true⟩ := by decide

/-- 95 section 5 rows 5 and 12, section 7.2 row 4. -/
theorem test_wctl :
    after (exec (.wctl true) State.reset) = some ⟨ok 0, 0, 0, false, true⟩ ∧
    after (exec (.wctl false) (holding Params.hardware [46] 0 true true)) =
      some ⟨failed 6, 1, 6, true, true⟩ ∧
    after (exec (.wctl true) aborted) = some ⟨failed 7, 1, 1, false, false⟩ := by decide

/-- 95 section 6: an illegal word latches 5, and in the aborted state leaves ERR. -/
theorem test_illegal :
    after (step ((holding Params.hardware [1] 0 false false).withFetchWord 32 0x10000001)) =
      some ⟨failed 5, 1, 5, false, false⟩ ∧
    after (step (aborted.withFetchWord 32 0x70000000)) =
      some ⟨failed 5, 1, 1, false, false⟩ := by decide

/-- A word placed by `withFetchWord` is the next the block performs, from reset on (R176). -/
theorem test_first_step :
    after (step (State.reset.withFetchWord 32 0x20000031)) = some ⟨ok 1, 1, 0, false, false⟩ := by
  decide

/-- 95 section 1.4: the bit numbering on one unit pair, by all three forms of the read (R31, R96, R97). -/
theorem test_bit_numbering :
    let m := (holding Params.hardware [63, 0] 0 false false).u
    memRead m 3 6 = some 56 ∧ memRead m 5 2 = some 2 ∧ memRead m 0 12 = some 4032 ∧
    streamShiftRead m 2 3 6 = some 56 ∧ windowRead m 3 6 = some 56 := by decide +kernel

/-- 95 program P5: under CH40 = 0x60 the grave accent decodes to 40, under 0x27 it does not decode. -/
theorem test_ch40 :
    alpha { Params.hardware with ch40 := 0x60 } 0x60 false = some 40 ∧
    alpha { Params.hardware with ch40 := 0x60 } 0x27 false = none ∧
    alpha Params.hardware 0x60 false = none := by decide

/-- 96 section 4.3, MSG2: fields read through the table. -/
theorem test_field_table :
    let m := (holding Params.hardware [3, 19, 61, 15, 45, 60, 37, 32, 15, 63, 44, 60, 35, 22, 0, 52, 4, 33,
      16, 14, 4, 15, 63, 57, 23, 26, 22, 37] 0 false false).u
    memRead m 8 30 = some 265547250 ∧ memRead m 61 28 = some 0x06791AC0 ∧
    memRead m 116 12 = some 3600 ∧ memRead m 149 19 = some 370085 := by decide +kernel

/-- R64 to R66: a line that is no command of the syntax is refused, a comment line is empty. That a string
of `DECODE` holds no double quote is log entry 10. -/
theorem test_assembler :
    assembleLine "CLR 1".toList = none ∧ assembleLine "WCTL 2".toList = none ∧
    assembleLine "XFLD Nothing".toList = none ∧ assembleLine "DECODE \"1\"5\"".toList = none ∧ assembleLine "; CLR".toList = some [] ∧
    assemble ["CLR".toList, "XMT".toList, "RDST".toList] = some [.clr, .xmt, .rdst] := by decide +kernel

/-! The witnesses: for each statement, concrete data that meets its hypotheses together, one for each
clause. -/

theorem witness_DecodeAndEncodeAreInverse : decode 0x3FC0FFFF = .ok (.xtr 63 65535) := by decide

theorem witness_MaskAndMatchNameTheDecodedCommand :
    ⟨"WCTL", 0xFFFFFFFE, 0x60000000⟩ ∈ opcodeTable ∧
    (0x60000001 : Word) &&& 0xFFFFFFFE = 0x60000000 := by decide

theorem witness_ReservedWordsRaiseIllegalCommand :
    decode 0x70000000 = .error .reservedOpcode ∧ decode 0x60000002 = .error .reservedBits ∧
    (aborted.given [.command 0x70000000]).inputs = .command 0x70000000 :: [] ∧
    (eight.given [.command 0x60000002, .reset]).inputs = .command 0x60000002 :: [.reset] := by decide

theorem witness_StepPerformsTheDecodedCommand :
    (eight.given [.command 0x40000000, .reset]).inputs = .command 0x40000000 :: [.reset] ∧
    decode 0x40000000 = .ok .xmt ∧ State.reset.inputs = [] := by decide

theorem witness_ResetEventPutsEveryPieceAtItsResetValue :
    (aborted.given [.reset, .reset]).inputs = .reset :: [.reset] := by decide

theorem witness_ResetStateIsEmptyAndFaultFree :
    (aborted.given [.reset]).inputs = .reset :: [] ∧
    small.wf = true ∧ 1 ≤ (1 : LenField).toNat ∧ (32 : LenField).toNat ≤ 32 ∧
    alpha small 0x77 (State.resetWith small).fixf = some 63 := by decide

theorem witness_WctlWritesTheModeOnlyBetweenMessages :
    aborted.err ≠ 0 ∧ (eight.err = 0 ∧ eight.cnt ≠ 0) ∧
    (State.reset.err = 0 ∧ State.reset.cnt = 0) := by decide

theorem witness_WctlTakesEffectAtTheNextPush :
    State.reset.Inv ∧ State.reset.err = 0 ∧ State.reset.cnt = 0 := ⟨inv_reset, rfl, rfl⟩

theorem witness_TableModeAffectsOnlyTheDecodeOfF :
    Instr.push 0x65 ≠ .push 0x66 ∧ Instr.push 0x65 ≠ .rdst ∧ (∀ f, Instr.push 0x65 ≠ .wctl f) ∧
    ∃ t, exec (.push 0x65) State.reset = .next t :=
  ⟨by decide, by decide, by decide, _, rfl⟩

theorem witness_NoCommandDependsOnFseen :
    Instr.push 0x66 ≠ .rdst ∧ ∃ t, exec (.push 0x66) eight = .next t := ⟨by decide, _, rfl⟩

theorem witness_AlphabetIsTheTableOfTheSpec : 0 < 256 ∧ 255 < 256 := by decide

theorem witness_TablesCollideOnlyAtEAndF :
    Params.hardware.wf = true ∧ alpha Params.hardware 0x65 false = some 45 ∧
    alpha Params.hardware 0x66 false = some 45 ∧ (0x65 : CharCode) ≠ 0x66 := by decide

theorem witness_ArmoringUndoesDecoding :
    Params.hardware.wf = true ∧ (39 : Unit6).toNat ≤ 39 ∧ (0x77 : CharCode) ≠ 0x66 ∧
    alpha Params.hardware 0x77 false = some 63 ∧ 41 ≤ (41 : Unit6).toNat ∧
    ¬((41 : Unit6) = 46 ∧ false = false) ∧ alpha Params.hardware 0x66 false = some 45 ∧
    alpha Params.hardware 0x66 true = some 46 := by decide

/-- The last free cell, CNT = CAP - 1. -/
theorem witness_PushDecodesAndAppends_success :
    let s := holding small (List.replicate 27 63) 0 false false
    s.params.wf = true ∧ s.err = 0 ∧ alpha s.params 0x66 s.fixf = some 45 ∧
    s.cnt.toNat < s.params.cap := by decide

theorem witness_PushDecodesAndAppends_faults :
    aborted.err ≠ 0 ∧
    (full.err = 0 ∧ alpha full.params 0x58 full.fixf = none) ∧
    (full.err = 0 ∧ alpha full.params 0x30 full.fixf = some 0 ∧ full.cnt.toNat = full.params.cap) := by
  decide

theorem witness_DecodeFillsTheBufferOrAborts :
    (small.wf = true ∧ (List.replicate 28 (0x66 : CharCode)).length ≤ full.params.cap ∧
      ∀ c ∈ List.replicate 28 (0x66 : CharCode), (alpha full.params c full.fixf).isSome) ∧
    (aborted.params.wf = true ∧ [(0x31 : CharCode), 0x35].length ≤ aborted.params.cap ∧
      (∀ c ∈ [(0x31 : CharCode), 0x35], (alpha aborted.params c aborted.fixf).isSome) ∧
      alpha aborted.params 0x58 aborted.fixf = none) := by decide +kernel

/-- PUSH 'f', XMT, RDST, PUSH '0', XTR 3, 6 from reset. -/
def interleaved : List Instr := [.push 0x66, .xmt, .rdst, .push 0x30, .xtr 6 3]

theorem witness_WholePayloadIsDecodedInOrder :
    State.reset.Inv ∧ State.reset.cnt = 0 ∧ State.reset.err = 0 ∧
    (∀ i ∈ interleaved, isWithinPayload i = true) ∧
    goodPass State.reset.responses.length
      (run interleaved.length (State.reset.given (present interleaved))) = true ∧
    ∃ t, run interleaved.length (State.reset.given (present interleaved)) = .next t :=
  ⟨inv_reset, rfl, rfl, by decide, by decide +kernel, _, rfl⟩

/-- 32 bits that end with the last bit of the buffer. -/
theorem witness_XtrReadsTheField_success :
    eight.Inv ∧ eight.err = 0 ∧ 1 ≤ (32 : LenField).toNat ∧ (32 : LenField).toNat ≤ 32 ∧
    (16 : OffField).toNat + (32 : LenField).toNat ≤ 6 * eight.cnt.toNat :=
  ⟨inv_eight, by decide⟩

theorem witness_StreamBitsAreNumberedFromTheMostSignificant :
    eight.Inv ∧ 0 < 6 * eight.cnt.toNat ∧ 47 < 6 * eight.cnt.toNat := ⟨inv_eight, by decide⟩

theorem witness_XtrReadsTheField_faults :
    aborted.err ≠ 0 ∧
    (eight.err = 0 ∧ (0 : LenField).toNat = 0 ∧ 33 ≤ (33 : LenField).toNat) ∧
    (eight.err = 0 ∧ 1 ≤ (1 : LenField).toNat ∧ (1 : LenField).toNat ≤ 32 ∧
      6 * eight.cnt.toNat < (48 : OffField).toNat + (1 : LenField).toNat) ∧
    (State.reset.err = 0 ∧ 6 * State.reset.cnt.toNat < 0 + 6) := by decide

theorem witness_XmtReadsTheFirstUnit :
    aborted.err ≠ 0 ∧ (State.reset.err = 0 ∧ State.reset.cnt = 0) ∧
    eight.Inv ∧ eight.err = 0 ∧ eight.cnt ≠ 0 :=
  ⟨by decide, by decide, inv_eight, by decide⟩

theorem witness_FieldReadIsAShiftOfTheWholeStream :
    (∀ j, j < 8 → Memory.read eight.u j =
      some ([1, 5, 10, 39, 41, 15, 63, 16].getD j (0 : Unit6))) ∧
    1 ≤ 32 ∧ 32 ≤ 32 ∧ 16 + 32 ≤ 6 * 8 := by decide

theorem witness_FieldReadIsAWindowShift :
    (∀ j, j < 8 → (Memory.read eight.u j).isSome) ∧ 1 ≤ 32 ∧ 32 ≤ 32 ∧ 5 + 32 ≤ 6 * 8 := by decide

theorem witness_ReadsCompose :
    (∀ j, j < 8 → (Memory.read eight.u j).isSome) ∧
    (1 ≤ 31 ∧ 1 ≤ 1 ∧ 31 + 1 ≤ 32 ∧ 16 + 31 + 1 ≤ 6 * 8) ∧
    (7 < 8 ∧ Memory.read eight.u 7 = some 16) ∧
    ([32, 1, 15].sum = 6 * 8 ∧ ∀ n ∈ [32, 1, 15], 1 ≤ n ∧ n ≤ 32) := by decide

theorem witness_FieldTableReadsReconstructTheStream :
    bufferP1.Inv ∧ bufferP1.err = 0 ∧ bufferP1.cnt = 28 := ⟨inv_bufferP1, by decide⟩

/-- Radio Status needs all 28 units of P1, Rate Of Turn one more than `eight` has. -/
theorem witness_FieldReadNeedsItsUnits :
    let radio : FieldDescriptor := ⟨"Radio Status", "RadioStatus", 149, 19⟩
    let turn : FieldDescriptor := ⟨"Rate Of Turn", "RateOfTurn", 42, 8⟩
    (bufferP1.Inv ∧ bufferP1.err = 0 ∧ radio ∈ fieldTable ∧ radio.minCnt ≤ bufferP1.cnt.toNat) ∧
    (eight.Inv ∧ eight.err = 0 ∧ turn ∈ fieldTable ∧ eight.cnt.toNat < turn.minCnt) :=
  ⟨⟨inv_bufferP1, by decide⟩, inv_eight, by decide⟩

theorem witness_DecodePassReturnsEveryField :
    full.params.wf = true ∧ 28 ≤ payloadP1.length ∧ payloadP1.length ≤ full.params.cap ∧
    ∀ c ∈ payloadP1, (alpha full.params c full.fixf).isSome := by decide +kernel

theorem witness_ReadsStayValidUnderAppends :
    eight.Inv ∧ eight.err = 0 ∧ 1 ≤ (32 : LenField).toNat ∧ (32 : LenField).toNat ≤ 32 ∧
    (16 : OffField).toNat + (32 : LenField).toNat ≤ 6 * eight.cnt.toNat ∧
    (∀ c ∈ payloadP1, (alpha eight.params c eight.fixf).isSome) ∧
    eight.cnt.toNat + payloadP1.length ≤ eight.params.cap :=
  ⟨inv_eight, by decide +kernel⟩

/-- The same units with another mode, flag and capacity. -/
def eightElsewhere : State := holding small [1, 5, 10, 39, 41, 15, 63, 16] 0 true true

theorem witness_XtrDependsOnlyOnTheBuffer :
    eight.Inv ∧ eightElsewhere.Inv ∧ eightElsewhere.u = eight.u ∧ eightElsewhere.cnt = eight.cnt ∧
    eightElsewhere.err = eight.err :=
  ⟨inv_eight, inv_of_decided (by decide), rfl, rfl, rfl⟩

theorem witness_SuccessfulReadsCommute :
    (∀ k, k = Instr.xmt ∨ k = Instr.rdst → isWithinPayload k = true ∧ ∀ c, k ≠ .push c) ∧
    ∃ t t', exec .xmt eight = .next t ∧ eight.Returns t ⟨false, 0, 1⟩ ∧
      exec .rdst eight = .next t' ∧ eight.Returns t' ⟨false, 0, 8⟩ := by
  refine ⟨?_, _, _, rfl, ⟨by decide +kernel, rfl⟩, rfl, by decide +kernel, rfl⟩
  rintro k (rfl | rfl) <;> exact ⟨rfl, by simp⟩

/-- A fault, and a success. -/
theorem witness_AFaultChangesNothingButErr :
    (∃ t, step (full.given [.command 0x20000030]) = .next t ∧
      t.lastResponse = some ⟨true, 4, 0⟩) ∧
    (∃ t, step (aborted.given [.command 0x10000000]) = .next t ∧
      t.lastResponse = some ⟨false, 0, 0⟩) :=
  ⟨⟨_, rfl, by decide +kernel⟩, _, rfl, by decide⟩

theorem witness_AbortedStateGatesTheMessageCommands :
    aborted.err ≠ 0 ∧ Instr.xtr 6 0 ≠ .clr ∧ Instr.xtr 6 0 ≠ .rdst ∧
    decode 0x20000158 = .error .reservedBits ∧
    (aborted.given [.command 0x20000158]).inputs = .command 0x20000158 :: [] := by decide

theorem witness_OnlyClrAndResetLeaveTheAbortedState :
    aborted.err ≠ 0 ∧
    ∀ w ∈ [(0x20000030 : Word), 0x31800000, 0x40000000, 0x60000001, 0x50000000, 0x70000000],
      decode w ≠ .ok .clr := by
  refine ⟨by decide, fun w hw => ?_⟩
  simp only [List.mem_cons, List.not_mem_nil, or_false] at hw
  rcases hw with rfl | rfl | rfl | rfl | rfl | rfl <;> decide

/-- One step for each clause: the fault latched, ERR kept in the aborted state, a success, CLR, reset, and
nothing presented. -/
theorem witness_ErrHoldsTheFirstFault :
    (full.err = 0 ∧ ∃ t, step (full.given [.command 0x20000030]) = .next t ∧
      State.Returns full t ⟨true, 4, 0⟩) ∧
    (aborted.err ≠ 0 ∧ decode 0x20000030 = .ok (.push 0x30) ∧
      ∃ t, step (aborted.given [.command 0x20000030]) = .next t ∧
        State.Returns aborted t ⟨true, 7, 0⟩) ∧
    (decode 0x40000000 = .ok .xmt ∧ ∃ t, step (eight.given [.command 0x40000000]) = .next t ∧
      State.Returns eight t ⟨false, 0, 1⟩) ∧
    (∃ t, step (aborted.given [.command 0x10000000]) = .next t) ∧
    (∃ t, step (aborted.given [.reset]) = .next t) ∧
    ∃ t, step aborted = .next t :=
  ⟨⟨by decide, _, rfl, by decide +kernel, rfl⟩, ⟨by decide, by decide, _, rfl, by decide +kernel, rfl⟩,
    ⟨by decide, _, rfl, by decide +kernel, rfl⟩, ⟨_, rfl⟩, ⟨_, rfl⟩, _, rfl⟩

/-- One step for each clause. -/
theorem witness_EachRegisterIsWrittenByItsEventsOnly :
    (eight.Inv ∧ ∃ t, step eight = .next t) ∧
    (State.reset.Inv ∧ ∃ t, step (State.reset.withFetchWord 32 0x20000066) = .next t ∧
      t.fseen = true) ∧
    (aborted.Inv ∧ ∃ t, step (aborted.withFetchWord 32 0x10000000) = .next t ∧ t.cnt = 0) ∧
    (State.reset.Inv ∧ ∃ t, step (State.reset.withFetchWord 32 0x60000001) = .next t ∧
      t.fixf = true) ∧
    (full.Inv ∧ ∃ t, step (full.given [.reset]) = .next t ∧ t.u = []) :=
  ⟨⟨inv_eight, _, rfl⟩, ⟨inv_reset, _, rfl, by decide⟩, ⟨inv_aborted, _, rfl, by decide⟩,
    ⟨inv_reset, _, rfl, by decide⟩, inv_full, _, rfl, rfl⟩

theorem witness_EveryCommandKeepsWhatItDoesNotWrite :
    (∃ t, exec (.push 0x65) eight = .next t) ∧ (∃ t, exec (.xtr 6 0) aborted = .next t) ∧
    aborted.err ≠ 0 ∧ (0x65 : CharCode) ≠ 0x66 ∧ 7 ≠ appendAddress eight :=
  ⟨⟨_, rfl⟩, ⟨_, rfl⟩, by decide⟩

theorem witness_ResetStateMeetsTheInvariant : small.wf = true := by decide

theorem witness_EveryStepKeepsTheInvariant :
    eight.Inv ∧ ∃ t, step (eight.withFetchWord 32 0x20000066) = .next t := ⟨inv_eight, _, rfl⟩

/-- A buffer that is emptied, the table changed in the empty buffer, and a unit appended. -/
theorem witness_NoBufferMixesTwoTables :
    (aborted.Inv ∧ aborted.UnitsAreDecodes ∧
      ∃ t, step (aborted.withFetchWord 32 0x10000000) = .next t) ∧
    (State.reset.Inv ∧ State.reset.UnitsAreDecodes ∧
      ∃ t, step (State.reset.withFetchWord 32 0x60000001) = .next t ∧ t.fixf ≠ State.reset.fixf) ∧
    ∃ t, step (State.reset.withFetchWord 32 0x20000066) = .next t ∧ Memory.read t.u 0 = some 45 := by
  have empty : State.reset.UnitsAreDecodes := fun a v h => by cases h
  refine ⟨⟨inv_aborted, fun a v h => ?_, _, rfl⟩, ⟨inv_reset, empty, _, rfl, by decide⟩, _, rfl,
    by decide⟩
  have hm : (a, v) = (0, (1 : Unit6)) := List.mem_singleton.mp (Memory.mem_of_read h)
  exact ⟨0x31, by rw [(Prod.mk.inj hm).2]; decide⟩

theorem witness_EveryCommandReturnsOneResponse : aborted.Inv := inv_aborted

theorem witness_InstancesAreIndependent :
    (0 : Nat) ≠ 1 ∧ [eight, aborted][1]? = some aborted ∧
    (∃ a, stepInstance 0 [eight.withFetchWord 32 0x40000000, aborted] = .next a) ∧
    ∃ b, stepInstance 1 [eight.withFetchWord 32 0x40000000, aborted] = .next b :=
  ⟨by decide, rfl, ⟨_, rfl⟩, _, rfl⟩

end Sys2Proof.Tests
end

section
/-! PROOFS. A legal word is the encoding of its command (spec 30_encoding.md R63). -/

namespace Sys2Proof

theorem ifZero_eq_ok {z : Bool} {i j : Instr} (h : ifZero z i = .ok j) : z = true ∧ i = j := by
  cases z with
  | true => exact ⟨rfl, Except.ok.inj h⟩
  | false => cases h

/-- Two slices that follow each other are one slice (R6). -/
theorem slice_append_slice (w : Word) (lo n m : Nat) :
    slice w (lo + n) m ++ slice w lo n = slice w lo (m + n) :=
  BitVec.extractLsb'_append_extractLsb'_eq_extractLsb' rfl

theorem slice_whole (w : Word) : slice w 0 32 = w := BitVec.extractLsb'_eq_self

/-- OP and the reserved bits right below it are the top of the word (R51, R61). -/
theorem op_append_reserved {w : Word} {op : BitVec 4} {lo n : Nat}
    (hop : (slice w (lo + n) 4).toNat = op.toNat) (hz : (slice w lo n == 0) = true) :
    op ++ 0#n = slice w lo (4 + n) := by
  have hz' : slice w lo n = 0#n := eq_of_beq hz
  rw [← BitVec.eq_of_toNat_eq hop, ← hz', slice_append_slice]

/-- A legal word is the encoding of the command it decodes to (R63). -/
theorem encode_of_decode {w : Word} {i : Instr} (h : decode w = .ok i) : encode i = w := by
  unfold decode at h
  split at h
  case h_1 hop | h_4 hop | h_5 hop =>
    obtain ⟨hz, rfl⟩ := ifZero_eq_ok h
    exact (op_append_reserved hop hz).trans (slice_whole w)
  case h_2 hop =>
    obtain ⟨hz, rfl⟩ := ifZero_eq_ok h
    rw [encode, op_append_reserved hop hz]
    exact (slice_append_slice w 0 8 24).trans (slice_whole w)
  case h_3 hop =>
    obtain ⟨hz, rfl⟩ := ifZero_eq_ok h
    have htop : 0x3#4 = slice w 28 4 := (BitVec.eq_of_toNat_eq hop).symm
    have hz' : slice w 16 6 = 0#6 := eq_of_beq hz
    rw [encode, htop, slice_append_slice w 22 6 4, ← hz', slice_append_slice w 16 6 10]
    exact (slice_append_slice w 0 16 16).trans (slice_whole w)
  case h_6 hop =>
    obtain ⟨hz, rfl⟩ := ifZero_eq_ok h
    have hf : BitVec.ofBool (w.getLsbD 0) = slice w 0 1 :=
      BitVec.eq_of_getLsbD_eq fun i hi => by
        obtain rfl := Nat.lt_one_iff.mp hi
        rw [getLsbD_slice]; simp
    rw [encode, op_append_reserved hop hz, hf]
    exact (slice_append_slice w 0 1 31).trans (slice_whole w)
  case h_7 => cases h

end Sys2Proof
end

section
/-! PROOFS. The invariant of spec 10_state.md R19 (c): it holds at reset and every step keeps it. -/

namespace Sys2Proof.Machine

/-- R19 (c): no character decodes to 46 under the reference table. -/
theorem alpha_reference_ne_46 {p : Params} (hp : p.wf = true) (c : CharCode) :
    alpha p c false ≠ some 46 := by
  intro h
  have h46 : (46 : Unit6).toNat = 46 := rfl
  rcases (alpha_eq_some_iff hp c false 46).mp h with
    ⟨-, h57, hv⟩ | ⟨-, hv⟩ | ⟨-, -, hv⟩ | ⟨-, -, hf, hv⟩
  · omega
  · omega
  · omega
  · exact hf ⟨by omega, rfl⟩

/-- A state as CLR and reset leave it, whatever its table mode, meets the invariant. -/
theorem State.inv_of_empty {s : State} (hp : s.params.wf = true) (hu : s.u = []) (hc : s.cnt = 0)
    (he : s.err = 0) (hf : s.fseen = false) : s.Inv :=
  State.inv_of_listed hp (by simp [hc]) (by simp [hu, hc]) (by simp [he]) (by simp [hu])
    (by simp [hf])

theorem State.unitsAreDecodes_of_empty {s : State} (hu : s.u = []) : s.UnitsAreDecodes := by
  intro a v h
  rw [hu] at h
  cases h

/-- A buffer without units has no cell that holds a value, so its list is empty. -/
theorem State.Inv.u_eq_nil {s : State} (h : s.Inv) (hc : s.cnt = 0) : s.u = [] := by
  refine Memory.ext_of_rising ((Memory.wf_iff _ _).mp h.memory_wf).1 List.Pairwise.nil fun a => ?_
  have hnone := h.cells a
  simpa [hc] using hnone

/-- With room in the buffer, CNT + 1 does not wrap in its 16 bits (R14). -/
theorem State.Inv.toNat_cnt_succ {s : State} (h : s.Inv) (hc : s.cnt.toNat < s.params.cap) :
    (s.cnt + 1).toNat = s.cnt.toNat + 1 := by
  obtain ⟨-, hcap, -⟩ := (params_wf_iff _).mp h.params_wf
  exact BitVec.toNat_add_of_lt (show s.cnt.toNat + 1 < 2 ^ 16 by omega)

theorem State.Inv.raise {s : State} (h : s.Inv) (c : BlockFault) : (raise c s).Inv := by
  refine ⟨h.params_wf, h.cnt_le_cap, h.memory_wf, h.cells, ?_, h.no46, h.fseen_cnt⟩
  rw [raise_err]
  split
  case isTrue hc => exact c.code_le hc.1
  case isFalse => exact h.err_le

/-- The table mode of an empty buffer is free (R17). -/
theorem State.Inv.setFixf {s : State} (h : s.Inv) (hc : s.cnt = 0) (f : Bool) :
    State.Inv { s with fixf := f } := by
  refine ⟨h.params_wf, h.cnt_le_cap, h.memory_wf, h.cells, h.err_le, fun _ a => ?_, h.fseen_cnt⟩
  rw [h.u_eq_nil hc]
  simp

/-- A PUSH that appends keeps the invariant: cell CNT takes a unit that is not 46 under the reference
table. -/
theorem State.Inv.push {s : State} (h : s.Inv) {c : CharCode} {v : Unit6}
    (ha : alpha s.params c s.fixf = some v) (hc : s.cnt.toNat < s.params.cap) :
    (finishPush c v
      { s with u := Memory.write s.u (appendAddress s) v, cnt := s.cnt + 1 }).Inv := by
  have hcnt := h.toNat_cnt_succ hc
  refine ⟨h.params_wf, ?_, Memory.wf_write h.memory_wf hc v, fun a => ?_, h.err_le,
    fun hf a => ?_, fun _ => ?_⟩
  · show (s.cnt + 1).toNat ≤ s.params.cap
    omega
  · simp only [finishPush_u, finishPush_cnt, Memory.read_write, hcnt, appendAddress]
    by_cases hac : s.cnt.toNat = a
    · simp [hac]
    · rw [if_neg hac, h.cells]
      exact decide_eq_decide.mpr (by omega)
  · have hf' : s.fixf = false := hf
    simp only [finishPush_u, Memory.read_write]
    split
    · rw [← ha, hf']
      exact alpha_reference_ne_46 h.params_wf c
    · exact h.no46 hf' a
  · simp only [finishPush_cnt, hcnt]
    omega

/-- R19 (c): every command keeps the invariant. -/
theorem exec_keeps_inv {i : Instr} {s t : State} (hs : s.Inv) (h : exec i s = .next t) : t.Inv := by
  rcases exec_next h with ⟨c, -, -, -, -, rfl⟩ | ⟨-, rfl⟩ | ⟨-, rfl⟩ | ⟨-, -, v, rfl⟩ |
    ⟨-, hc, f, -, rfl⟩ | ⟨-, hc, c, v, -, hv, rfl⟩
  · exact hs.raise c
  · exact State.inv_of_empty hs.params_wf rfl rfl rfl rfl
  · exact hs.respond _
  · exact hs.respond _
  · exact (hs.setFixf hc f).respond _
  · exact hs.push hv hc

/-- Settles O44, by the cases of a step: idle, reset, illegal word, command. -/
theorem everyStepKeepsTheInvariant : Obligations.EveryStepKeepsTheInvariant := by
  intro s t hs h
  rcases step_next h with ⟨-, rfl⟩ | ⟨rest, -, rfl⟩ | ⟨w, rest, r, -, -, rfl⟩ | ⟨w, rest, i, -, -, he⟩
  · exact hs
  · exact State.inv_of_empty hs.params_wf rfl rfl rfl rfl
  · exact (hs.given rest).raise _
  · exact exec_keeps_inv (hs.given rest) he

/-- R171: the reset state of a legal chip is empty and fault-free, so it meets the invariant. -/
theorem resetWith_inv {p : Params} (hp : p.wf = true) : (State.resetWith p).Inv :=
  State.inv_of_empty hp rfl rfl rfl rfl

theorem hardware_wf : Params.hardware.wf = true := by decide

/-- Settles O43: the reset state is empty, which meets every clause about cells. -/
theorem resetStateMeetsTheInvariant : Obligations.ResetStateMeetsTheInvariant :=
  ⟨fun _ hp => ⟨resetWith_inv hp, State.unitsAreDecodes_of_empty rfl⟩,
    resetWith_inv hardware_wf, State.unitsAreDecodes_of_empty rfl⟩

end Sys2Proof.Machine
end

section
/-! PROOFS. What each command leaves as it was (spec 10_state.md R21), and with what it answers. -/

namespace Sys2Proof.Machine

/-- A command changes neither the parameters nor the queue, and it returns one response (R21, R39). -/
theorem exec_port {i : Instr} {s t : State} (h : exec i s = .next t) :
    t.params = s.params ∧ t.inputs = s.inputs ∧ ∃ r, s.Returns t r := by
  rcases exec_next h with ⟨c, -, -, -, -, rfl⟩ | ⟨-, rfl⟩ | ⟨-, rfl⟩ | ⟨-, -, v, rfl⟩ |
    ⟨-, -, f, -, rfl⟩ | ⟨-, -, c, v, -, -, rfl⟩ <;>
  exact ⟨rfl, rfl, _, rfl, rfl⟩

/-- FIXF is written by WCTL only (R17). -/
theorem exec_fixf {i : Instr} {s t : State} (h : exec i s = .next t) (hi : ∀ f, i ≠ .wctl f) :
    t.fixf = s.fixf := by
  rcases exec_next h with ⟨c, -, -, -, -, rfl⟩ | ⟨-, rfl⟩ | ⟨-, rfl⟩ | ⟨-, -, v, rfl⟩ |
    ⟨-, -, f, hw, rfl⟩ | ⟨-, -, c, v, -, -, rfl⟩
  · rfl
  · rfl
  · rfl
  · rfl
  · exact absurd hw (hi f)
  · rfl

/-- CNT, FSEEN and the buffer are written by PUSH and CLR only (R12, R14, R16). -/
theorem exec_buffer {i : Instr} {s t : State} (h : exec i s = .next t) (hp : ∀ c, i ≠ .push c)
    (hc : i ≠ .clr) : t.cnt = s.cnt ∧ t.fseen = s.fseen ∧ t.u = s.u := by
  rcases exec_next h with ⟨c, -, -, -, -, rfl⟩ | ⟨hi, -⟩ | ⟨-, rfl⟩ | ⟨-, -, v, rfl⟩ |
    ⟨-, -, f, -, rfl⟩ | ⟨-, -, c, v, hi, -⟩
  · exact ⟨rfl, rfl, rfl⟩
  · exact absurd hi hc
  · exact ⟨rfl, rfl, rfl⟩
  · exact ⟨rfl, rfl, rfl⟩
  · exact ⟨rfl, rfl, rfl⟩
  · exact absurd hi (hp c)

/-- PUSH writes no cell but the one `appendAddress` computes, and FSEEN for 0x66 only (R16, R32). -/
theorem exec_push_frame {c : CharCode} {s t : State} (h : exec (.push c) s = .next t) :
    (∀ a, a ≠ appendAddress s → Memory.read t.u a = Memory.read s.u a) ∧
      (c ≠ codeOfF → t.fseen = s.fseen) := by
  rcases execPush_next h with ⟨-, rfl⟩ | ⟨-, -, rfl⟩ | ⟨-, -, -, rfl⟩ | ⟨-, -, v, -, rfl⟩
  · exact ⟨fun _ _ => rfl, fun _ => rfl⟩
  · exact ⟨fun _ _ => rfl, fun _ => rfl⟩
  · exact ⟨fun _ _ => rfl, fun _ => rfl⟩
  · exact ⟨fun a ha => Memory.read_write_other s.u v ha.symm, fun hc => if_neg hc⟩

/-- A command answers with a fault, MessageAborted only in the aborted state, or with a success, after
which ERR is as before unless the command is CLR (R153, R154). -/
theorem exec_answers {i : Instr} {s t : State} (h : exec i s = .next t) :
    (∃ c, (c = .messageAborted → s.err ≠ 0) ∧ t = raise c s) ∨
    (∃ v, s.Returns t (okResponse v) ∧ (t.err = s.err ∨ i = .clr ∧ t.err = 0)) := by
  rcases exec_next h with ⟨c, -, hc, -, -, rfl⟩ | ⟨hi, rfl⟩ | ⟨-, rfl⟩ | ⟨-, -, v, rfl⟩ |
    ⟨-, -, f, -, rfl⟩ | ⟨-, -, c, v, -, -, rfl⟩
  · exact .inl ⟨c, hc.mp, rfl⟩
  · exact .inr ⟨0, ⟨rfl, rfl⟩, .inr ⟨hi, rfl⟩⟩
  · exact .inr ⟨_, ⟨rfl, rfl⟩, .inl rfl⟩
  · exact .inr ⟨v, ⟨rfl, rfl⟩, .inl rfl⟩
  · exact .inr ⟨0, ⟨rfl, rfl⟩, .inl rfl⟩
  · exact .inr ⟨_, ⟨rfl, rfl⟩, .inl rfl⟩

/-- A step on a command word answers as its command does, and on an illegal word with a fault (R146). -/
theorem step_answers {s t : State} {w : Word} {rest : List HostEvent}
    (hi : s.inputs = .command w :: rest) (h : step s = .next t) :
    (∃ c, (c = .messageAborted → s.err ≠ 0) ∧ t = raise c (s.given rest)) ∨
    (∃ v, State.Returns (s.given rest) t (okResponse v) ∧
      (t.err = s.err ∨ decode w = .ok .clr ∧ t.err = 0)) := by
  cases hd : decode w with
  | error r =>
    rw [step_illegal hi hd] at h
    cases h
    exact .inl ⟨.illegalCommand, nofun, rfl⟩
  | ok i =>
    rw [step_legal hi hd] at h
    rcases exec_answers h with hf | ⟨v, hv, hok⟩
    · exact .inl hf
    · exact .inr ⟨v, hv, hok.imp_right fun hc => ⟨congrArg _ hc.1, hc.2⟩⟩

/-- No step changes the parameters (log entry 1). -/
theorem step_params {s t : State} (h : step s = .next t) : t.params = s.params := by
  rcases step_next h with ⟨-, rfl⟩ | ⟨rest, -, rfl⟩ | ⟨w, rest, r, -, -, rfl⟩ | ⟨w, rest, i, -, -, he⟩
  · rfl
  · rfl
  · rfl
  · exact (exec_port he).1

/-- R153: from ERR = 0 a fault latches its code, 1 to 6; in the aborted state it leaves ERR. -/
theorem raise_latches {s : State} {c : BlockFault} (hc : c = .messageAborted → s.err ≠ 0) :
    (s.err = 0 ∧ (raise c s).err = c.code ∧ 1 ≤ c.code.toNat ∧ c.code.toNat ≤ 6) ∨
    (s.err ≠ 0 ∧ (raise c s).err = s.err) := by
  by_cases he : s.err = 0
  · have hm : c ≠ .messageAborted := fun hm => hc hm he
    have hpos : c.code.toNat ≠ 0 := fun h0 => c.code_ne_zero (BitVec.eq_of_toNat_eq h0)
    exact .inl ⟨he, if_pos ⟨hm, he⟩, Nat.one_le_iff_ne_zero.mpr hpos, c.code_le hm⟩
  · exact .inr ⟨he, by rw [raise_of_err c he, respond_err]⟩

/-- A command other than CLR leaves ERR, or it latches the fault it responds with (R15). -/
theorem exec_err {i : Instr} {s t : State} (h : exec i s = .next t) (hi : i ≠ .clr) :
    t.err = s.err ∨ (s.err = 0 ∧ ∃ r, s.Returns t r ∧ r.f = true ∧ r.code = t.err) := by
  rcases exec_answers h with ⟨c, hc, rfl⟩ | ⟨v, -, hok | ⟨hclr, -⟩⟩
  · rcases raise_latches hc with ⟨he, hcode, -⟩ | ⟨-, hkeep⟩
    · exact .inr ⟨he, _, ⟨rfl, rfl⟩, rfl, hcode.symm⟩
    · exact .inl hkeep
  · exact .inl hok
  · exact absurd hclr hi

/-- Settles O42, register by register. -/
theorem everyCommandKeepsWhatItDoesNotWrite : Obligations.EveryCommandKeepsWhatItDoesNotWrite := by
  intro i s t h
  refine ⟨exec_fixf h, exec_buffer h, ?_, ?_, fun hi he => ?_, fun hi => ?_, exec_port h⟩
  · rintro c rfl
    exact (exec_push_frame h).1
  · rintro c rfl
    exact (exec_push_frame h).2
  · exact (exec_err h hi).resolve_right fun hlatch => he hlatch.1
  · exact (exec_err h hi).imp_right And.right

end Sys2Proof.Machine
end

section
/-! PROOFS. Which events write which register (spec 10_state.md R11 to R17), and ERR as the record of the
first fault (60_exceptions.md R157). -/

namespace Sys2Proof.Machine

/-- A successful PUSH adds to FSEEN whether its code is 0x66 (R16). -/
theorem finishPush_fseen_eq_or (c : CharCode) (v : Unit6) (s : State) :
    (finishPush c v s).fseen = (s.fseen || decide (c = 0x66)) := by
  rw [finishPush_fseen, codeOfF]
  simp [Bool.or_comm]

/-- Settles O41: the commands that write one of the four are the PUSH that appends, CLR and the WCTL that
succeeds. -/
theorem eachRegisterIsWrittenByItsEventsOnly : Obligations.EachRegisterIsWrittenByItsEventsOnly := by
  intro s t hs h
  rcases step_next h with ⟨-, rfl⟩ | ⟨rest, hi, rfl⟩ | ⟨w, rest, r, -, -, rfl⟩ |
    ⟨w, rest, i, hi, hd, he⟩
  · exact .inl ⟨rfl, rfl, rfl, rfl⟩
  · exact .inr (.inr (.inr (.inr ⟨rest, hi, rfl, rfl, rfl, rfl⟩)))
  · exact .inl ⟨rfl, rfl, rfl, rfl⟩
  obtain rfl := encode_of_decode hd
  rcases exec_next he with ⟨c, -, -, -, -, rfl⟩ | ⟨rfl, rfl⟩ | ⟨-, rfl⟩ | ⟨-, -, v, rfl⟩ |
    ⟨herr, hc, f, rfl, rfl⟩ | ⟨herr, hc, c, v, rfl, hv, rfl⟩
  · exact .inl ⟨rfl, rfl, rfl, rfl⟩
  · exact .inr (.inr (.inl ⟨rest, hi, rfl, rfl, rfl, rfl⟩))
  · exact .inl ⟨rfl, rfl, rfl, rfl⟩
  · exact .inl ⟨rfl, rfl, rfl, rfl⟩
  · exact .inr (.inr (.inr (.inl ⟨f, rest, hi, herr, hc, rfl, rfl, rfl, rfl⟩)))
  · refine .inr (.inl ⟨c, v, rest, hi, herr, hv, hc, hs.toNat_cnt_succ hc, fun a => ?_, ?_, rfl⟩)
    · simp only [finishPush_u, Memory.read_write, appendAddress, eq_comm (a := a)]
    · exact finishPush_fseen_eq_or c v _

/-- A step empties the buffer (or finds it empty), or it leaves the table mode and every unit, and appends
at most the decode of the character it pushes (R43, R115). -/
theorem step_units {s t : State} (hs : s.Inv) (h : step s = .next t) :
    t.u = [] ∨ (t.fixf = s.fixf ∧ ∀ a v, Memory.read t.u a = some v → Memory.read s.u a = some v ∨
      ∃ c rest, s.inputs = .command (encode (.push c)) :: rest ∧
        alpha s.params c s.fixf = some v) := by
  rcases eachRegisterIsWrittenByItsEventsOnly s t hs h with ⟨htu, -, -, htf⟩ |
    ⟨c, x, rest, hi, -, hx, -, -, htu, -, htf⟩ | ⟨rest, -, htu, -⟩ |
    ⟨f, rest, -, -, hc, -, htu, -⟩ | ⟨rest, -, htu, -⟩
  · exact .inr ⟨htf, fun a v hv => .inl (htu ▸ hv)⟩
  · refine .inr ⟨htf, fun a v hv => ?_⟩
    rw [htu] at hv
    split at hv
    · exact .inr ⟨c, rest, hi, hx.trans hv⟩
    · exact .inl hv
  · exact .inl htu
  · exact .inl (htu.trans (hs.u_eq_nil hc))
  · exact .inl htu

/-- Settles O45: a new unit is a decode under the mode before the step, which a step that keeps units
keeps. -/
theorem noBufferMixesTwoTables : Obligations.NoBufferMixesTwoTables := by
  intro s t hs hu h
  rcases step_units hs h with ht | ⟨hf, hnew⟩
  · exact ⟨State.unitsAreDecodes_of_empty ht, .inr ht, fun a v hv => by rw [ht] at hv; cases hv⟩
  · refine ⟨fun a v hv => ?_, .inl hf, hnew⟩
    rw [step_params h, hf]
    rcases hnew a v hv with hold | ⟨c, rest, -, hc⟩
    · exact hu a v hold
    · exact ⟨c, hc⟩

theorem State.Returns.unique {s t : State} {r r' : Response} (h : s.Returns t r)
    (h' : s.Returns t r') : r = r' :=
  List.singleton_injective (List.append_cancel_left (h.1.symm.trans h'.1))

theorem State.Returns.lastResponse {s t : State} {r : Response} (h : s.Returns t r) :
    t.lastResponse = some r := by
  rw [State.lastResponse, h.1, List.getLast?_concat]

/-- What a command word does to ERR, and with what it answers: it latches its fault, it leaves ERR, or it is
CLR (R15, R157). -/
theorem step_command_err {s t : State} {w : Word} {rest : List HostEvent}
    (hi : s.inputs = .command w :: rest) (h : step s = .next t) :
    ∃ r, State.Returns (s.given rest) t r ∧
      ((s.err = 0 ∧ 1 ≤ t.err.toNat ∧ t.err.toNat ≤ 6 ∧ r = ⟨true, t.err, 0⟩) ∨
       (t.err = s.err ∧ (r.f = true → s.err ≠ 0)) ∨
       (decode w = .ok .clr ∧ t.err = 0 ∧ r.f = false)) := by
  rcases step_answers hi h with ⟨c, hc, rfl⟩ | ⟨v, hv, hkeep | ⟨hclr, ht⟩⟩
  · refine ⟨faultResponse c, ⟨rfl, rfl⟩, ?_⟩
    rcases raise_latches (s := s.given rest) hc with ⟨he, hcode, hlo, hhi⟩ | ⟨he, hkeep⟩
    · rw [hcode]
      exact .inl ⟨he, hlo, hhi, rfl⟩
    · exact .inr (.inl ⟨hkeep, fun _ => he⟩)
  · exact ⟨_, hv, .inr (.inl ⟨hkeep, nofun⟩)⟩
  · exact ⟨_, hv, .inr (.inr ⟨hclr, ht, rfl⟩)⟩

/-- CLR and the reset event leave ERR = 0 (R110, R171). -/
theorem step_clears_err {s t : State} {rest : List HostEvent}
    (hi : s.inputs = .command (encode .clr) :: rest ∨ s.inputs = .reset :: rest)
    (h : step s = .next t) : t.err = 0 := by
  rcases hi with hi | hi
  · rw [step_legal hi (show decode (encode .clr) = .ok .clr by decide)] at h
    cases h
    rfl
  · rw [step_reset hi] at h
    cases h
    rfl

/-- Settles O40: from what a command word does to ERR, since it returns one response only. -/
theorem errHoldsTheFirstFault : Obligations.ErrHoldsTheFirstFault := by
  intro s t h
  refine ⟨fun w rest r hi hr => ?_, fun rest hi => step_clears_err hi h, ?_⟩
  · obtain ⟨r', hr', hout⟩ := step_command_err hi h
    obtain rfl := hr.unique hr'
    rcases hout with ⟨he, hlo, hhi, rfl⟩ | ⟨hkeep, hf⟩ | ⟨hclr, -, hf⟩
    · exact ⟨fun _ _ => ⟨rfl, hlo, hhi⟩, fun hne => absurd he hne, nofun⟩
    · exact ⟨fun he hrf => absurd he (hf hrf), fun _ _ => hkeep, fun _ _ => hkeep⟩
    · exact ⟨fun _ hrf => absurd (hf.symm.trans hrf) nofun, fun _ hne => absurd hclr hne,
        fun _ hne => absurd hclr hne⟩
  · rcases hi : s.inputs with _ | ⟨w | _, rest⟩
    · rw [step_idle hi] at h
      cases h
      exact .inl rfl
    · obtain ⟨r, hr, hout⟩ := step_command_err hi h
      rcases hout with ⟨he, hlo, hhi, rfl⟩ | ⟨hkeep, -⟩ | ⟨hclr, ht, -⟩
      · exact .inr (.inl ⟨he, hlo, hhi, hr.lastResponse, w, rest, rfl⟩)
      · exact .inl hkeep
      · obtain rfl := encode_of_decode hclr
        exact .inr (.inr ⟨ht, rest, .inl rfl⟩)
    · exact .inr (.inr ⟨step_clears_err (.inr hi) h, rest, .inr rfl⟩)

end Sys2Proof.Machine
end

section
/-! PROOFS. No command but RDST reads FSEEN (spec 10_state.md R16). -/

namespace Sys2Proof.Machine

/-- The bounds check and the read answer the same whatever FSEEN is. -/
theorem readField_ignores_fseen {s t : State} {off len : Nat} (b : Bool)
    (h : readField off len s = .next t) :
    ∃ t', readField off len { s with fseen := b } = .next t' ∧
      { t' with fseen := false } = { t with fseen := false } := by
  rcases readField_next h with ⟨hb, v, hv, rfl⟩ | ⟨hb, rfl⟩
  · exact ⟨_, readField_of_some (s := { s with fseen := b }) hb hv, rfl⟩
  · exact ⟨_, readField_of_out (s := { s with fseen := b }) hb, rfl⟩

/-- Settles O15: each command's checks read other registers only, and its effect is the same but for
FSEEN. -/
theorem noCommandDependsOnFseen : Obligations.NoCommandDependsOnFseen := by
  intro i s t b hi h
  by_cases hc : i = .clr
  · subst hc
    cases h
    exact ⟨_, rfl, rfl⟩
  by_cases he : s.err ≠ 0
  · rw [exec_of_err he hc hi] at h
    cases h
    exact ⟨_, exec_of_err (s := { s with fseen := b }) he hc hi, rfl⟩
  rw [not_not] at he
  cases i with
  | clr => exact absurd rfl hc
  | rdst => exact absurd rfl hi
  | push c =>
    rcases execPush_next h with ⟨hne, -⟩ | ⟨-, ha, rfl⟩ | ⟨-, ⟨v, ha⟩, hfull, rfl⟩ |
      ⟨-, hroom, v, ha, rfl⟩
    · exact absurd he hne
    · exact ⟨_, execPush_of_none (s := { s with fseen := b }) he ha, rfl⟩
    · exact ⟨_, execPush_of_full (s := { s with fseen := b }) he ha hfull, rfl⟩
    · exact ⟨_, execPush_of_some (s := { s with fseen := b }) he ha hroom, rfl⟩
  | xtr len off =>
    by_cases hl : 1 ≤ len.toNat ∧ len.toNat ≤ 32
    · rw [exec, execXtr_of_length he hl] at h
      rw [exec, execXtr_of_length (s := { s with fseen := b }) he hl]
      exact readField_ignores_fseen b h
    · rw [exec, execXtr_of_bad_length he hl] at h
      cases h
      exact ⟨_, execXtr_of_bad_length (s := { s with fseen := b }) he hl, rfl⟩
  | xmt =>
    rw [exec, execXmt_of_no_err he] at h
    rw [exec, execXmt_of_no_err (s := { s with fseen := b }) he]
    exact readField_ignores_fseen b h
  | wctl f =>
    rcases execWctl_next h with ⟨hne, -⟩ | ⟨-, hc, rfl⟩ | ⟨-, hc, rfl⟩
    · exact absurd he hne
    · exact ⟨_, execWctl_of_units (s := { s with fseen := b }) he hc, rfl⟩
    · exact ⟨_, execWctl_of_empty (s := { s with fseen := b }) he hc, rfl⟩

end Sys2Proof.Machine
end

section
/-! PROOFS. An encoded command decodes to itself (spec 30_encoding.md R63), and a run performs the commands
presented one by one (20_memory.md R35, R39). -/

namespace Sys2Proof

/-- A slice whose bits are those of a field is the field. -/
theorem slice_eq_of_getLsbD {w : Word} {lo n : Nat} {x : BitVec n}
    (h : ∀ i, i < n → w.getLsbD (lo + i) = x.getLsbD i) : slice w lo n = x :=
  BitVec.eq_of_getLsbD_eq fun i hi => by rw [getLsbD_slice, h i hi, decide_eq_true hi, Bool.true_and]

theorem slice_encode_push_char (c : CharCode) : slice (encode (.push c)) 0 8 = c :=
  slice_eq_of_getLsbD fun i hi => by rw [getLsbD_encode_push, Nat.zero_add, if_pos hi]

theorem slice_encode_push_reserved (c : CharCode) : slice (encode (.push c)) 8 20 = 0#20 :=
  slice_eq_of_getLsbD fun i hi => by
    rw [getLsbD_encode_push, if_neg (by omega), if_pos (by omega), BitVec.getLsbD_zero]

theorem slice_encode_xtr_off (len : LenField) (off : OffField) :
    slice (encode (.xtr len off)) 0 16 = off :=
  slice_eq_of_getLsbD fun i hi => by rw [getLsbD_encode_xtr, Nat.zero_add, if_pos hi]

theorem slice_encode_xtr_reserved (len : LenField) (off : OffField) :
    slice (encode (.xtr len off)) 16 6 = 0#6 :=
  slice_eq_of_getLsbD fun i hi => by
    rw [getLsbD_encode_xtr, if_neg (by omega), if_pos (by omega), BitVec.getLsbD_zero]

theorem slice_encode_xtr_len (len : LenField) (off : OffField) :
    slice (encode (.xtr len off)) 22 6 = len :=
  slice_eq_of_getLsbD fun i hi => by
    rw [getLsbD_encode_xtr, if_neg (by omega), if_neg (by omega), if_pos (by omega),
      Nat.add_sub_cancel_left]

/-- `Decode(Encode(i))` is `i` (R63). -/
theorem decode_encode (i : Instr) : decode (encode i) = .ok i := by
  cases i with
  | clr => decide
  | push c =>
    rw [decode, opcode_encode, slice_encode_push_reserved, slice_encode_push_char]
    rfl
  | xtr len off =>
    rw [decode, opcode_encode, slice_encode_xtr_reserved, slice_encode_xtr_len, slice_encode_xtr_off]
    rfl
  | xmt => decide
  | rdst => decide
  | wctl f => cases f <;> decide

/-- Every command word can be presented (R50). -/
theorem tableWord_toNat (w : Word) : tableWord 32 w.toNat = some w := by
  rw [tableWord, Nat.mod_eq_of_lt w.isLt, if_pos w.isLt, BitVec.ofNat_toNat, BitVec.setWidth_eq]

namespace Machine

theorem withFetchWord_toNat (s : State) (w : Word) :
    s.withFetchWord 32 w.toNat = s.given (.command w :: s.inputs) := by
  rw [State.withFetchWord, tableWord_toNat]
  rfl

/-- Settles O7: what a step does with a legal word, with an encoded command put first, and with nothing. -/
theorem stepPerformsTheDecodedCommand : Obligations.StepPerformsTheDecodedCommand := by
  refine ⟨fun s w rest i hi hd => step_legal hi hd, fun s i => ?_, fun s => step_idle⟩
  rw [withFetchWord_toNat]
  exact step_legal rfl (decode_encode i)

/-- The first command presented is performed by the first step of a run. -/
theorem run_of_exec {k : Nat} {s t : State} {i : Instr} {is : List Instr}
    (hi : s.inputs = present (i :: is)) (h : exec i (s.given (present is)) = .next t) :
    run (k + 1) s = run k t :=
  run_of_step ((step_legal hi (decode_encode i)).trans h)

end Machine

end Sys2Proof
end

section
/-! PROOFS. Fields of the stream as numbers (spec 20_memory.md R30, R31, R41): the bits of a read, the read
that is one unit, and the whole stream as one read. -/

namespace Sys2Proof.Machine

/-- The first bit read is the most significant (R31). -/
theorem bufBit_of_memRead {m : Memory} {k n v : Nat} (h : memRead m k n = some v) {i : Nat}
    (hi : i < n) : bufBit m (k + i) = some (v.testBit (n - 1 - i)) := by
  induction n generalizing v with
  | zero => omega
  | succ n ih =>
    simp only [memRead_succ, Option.bind_eq_some_iff, Option.map_eq_some_iff] at h
    obtain ⟨w, hw, b, hb, rfl⟩ := h
    rcases Nat.lt_succ_iff_lt_or_eq.mp hi with hlt | rfl
    · rw [ih hw hlt, show n + 1 - 1 - i = (n - 1 - i) + 1 by omega, Nat.testBit_succ]
      congr 2
      have := b.toNat_lt
      omega
    · rw [hb, show i + 1 - 1 - i = 0 by omega, Nat.testBit_zero]
      cases b <;> simp

/-- A stream bit of cell `j`, most significant first (R30). -/
theorem bufBit_unit (m : Memory) (j : Nat) {i : Nat} (hi : i < 6) :
    bufBit m (6 * j + i) = (Memory.read m j).map fun v => v.getLsbD (5 - i) := by
  rw [bufBit_eq, show (6 * j + i) / 6 = j by omega, show (6 * j + i) % 6 = i by omega]

/-- A unit-aligned 6-bit read is the unit (R41). -/
theorem memRead_unit {m : Memory} {j : Nat} {v : Unit6} (h : Memory.read m j = some v) :
    memRead m (6 * j) 6 = some v.toNat := by
  obtain ⟨x, hx, hlt⟩ := memRead_some (m := m) (k := 6 * j) (n := 6) fun i hi => by
    rw [show (6 * j + i) / 6 = j by omega, h]; rfl
  suffices x = v.toNat by rw [hx, this]
  refine Nat.eq_of_testBit_eq fun i => ?_
  by_cases hi : i < 6
  · have hbit := bufBit_of_memRead hx (i := 5 - i) (by omega)
    rw [bufBit_unit m j (by omega), h, show 5 - (5 - i) = i by omega] at hbit
    exact (Option.some.inj hbit).symm
  · have hpow : 2 ^ 6 ≤ 2 ^ i := Nat.pow_le_pow_right (by decide) (by omega)
    rw [Nat.testBit_lt_two_pow (by omega), Nat.testBit_lt_two_pow (by omega)]

/-- The units from `a` on, as one number, are one read of six bits a unit. -/
theorem unitsValue_eq_memRead {m : Memory} {a n : Nat}
    (h : ∀ i, i < n → (Memory.read m (a + i)).isSome) :
    unitsValue m a n = memRead m (6 * a) (6 * n) := by
  induction n with
  | zero => rfl
  | succ n ih =>
    obtain ⟨v, hv⟩ := Option.isSome_iff_exists.mp (h n (by omega))
    have hunit := memRead_unit hv
    rw [unitsValue_succ, ih fun i hi => h i (by omega), hv, Nat.mul_succ, memRead_add,
      ← Nat.mul_add, hunit]
    simp [Nat.mul_comm]

/-- The whole stream is one read of all its bits. -/
theorem streamValue_eq_memRead {m : Memory} {cnt : Nat}
    (h : ∀ j, j < cnt → (Memory.read m j).isSome) :
    streamValue m cnt = memRead m 0 (6 * cnt) :=
  unitsValue_eq_memRead fun i hi => by rw [Nat.zero_add]; exact h i hi

/-- Contiguous reads, concatenated in offset order, are one read of all their bits. -/
theorem readTiling_eq_memRead (m : Memory) (k : Nat) (ns : List Nat) :
    readTiling m k ns = memRead m k ns.sum := by
  induction ns generalizing k with
  | nil => rfl
  | cons n ns ih => rw [readTiling_cons, ih, List.sum_cons, memRead_add]

/-- Every field inside a buffer whose first `cnt` cells hold values can be read. -/
theorem memRead_exists {m : Memory} {cnt k n : Nat} (h : ∀ j, j < cnt → (Memory.read m j).isSome)
    (hb : k + n ≤ 6 * cnt) : ∃ v, memRead m k n = some v := by
  obtain ⟨v, hv, -⟩ := memRead_some (m := m) (k := k) (n := n) fun i hi => h _ (by omega)
  exact ⟨v, hv⟩

theorem State.Inv.isSome_read {s : State} (h : s.Inv) {a : Nat} (ha : a < s.cnt.toNat) :
    (Memory.read s.u a).isSome := by
  rw [h.cells]
  exact decide_eq_true ha

/-- Settles O24: the stream is one read, so its bits are stream bits. -/
theorem streamBitsAreNumberedFromTheMostSignificant :
    Obligations.StreamBitsAreNumberedFromTheMostSignificant := by
  intro s hs k hk
  obtain ⟨v, hv⟩ := Option.isSome_iff_exists.mp (hs.isSome_read (a := k / 6) (by omega))
  have hcells : ∀ j, j < s.cnt.toNat → (Memory.read s.u j).isSome := fun j => hs.isSome_read
  obtain ⟨x, hx⟩ := memRead_exists (k := 0) hcells (Nat.zero_add _).le
  have hunit : bufBit s.u k = some (v.getLsbD (5 - k % 6)) := by rw [bufBit_eq, hv]; rfl
  have hstream := bufBit_of_memRead hx hk
  rw [Nat.zero_add, hunit] at hstream
  exact ⟨v, x, hv, hunit, (streamValue_eq_memRead hcells).trans hx, (Option.some.inj hstream).symm⟩

/-- Settles O28: a tiling and the stream are both one read of the whole buffer. -/
theorem readsCompose : Obligations.ReadsCompose := by
  intro m cnt h
  refine ⟨fun k n j _ _ _ hb => ?_, fun j v _ hv => memRead_unit hv, fun ns hsum _ => ?_⟩
  · obtain ⟨a, ha⟩ := memRead_exists (k := k) (n := n) h (by omega)
    obtain ⟨b, hb'⟩ := memRead_exists (k := k + n) (n := j) h hb
    exact ⟨a, b, ha, hb', by rw [memRead_add, ha, hb']; rfl⟩
  · obtain ⟨x, hx⟩ := memRead_exists (k := 0) h (Nat.zero_add _).le
    exact ⟨x, by rw [readTiling_eq_memRead, hsum, hx], (streamValue_eq_memRead h).trans hx⟩

end Sys2Proof.Machine
end

section
/-! PROOFS. Appending keeps what was there (spec 20_memory.md R32, R40), and a new table mode holds from the
next PUSH on (R43). -/

namespace Sys2Proof.Machine

/-- `t` is `s` after `n` successful PUSH commands, as far as reads of the units that `s` held and further
PUSH commands can tell. -/
structure State.Appended (n : Nat) (s t : State) : Prop where
  inv : t.Inv
  err : t.err = s.err
  fixf : t.fixf = s.fixf
  params : t.params = s.params
  cnt : t.cnt.toNat = s.cnt.toNat + n
  units : ∀ a, a < s.cnt.toNat → Memory.read t.u a = Memory.read s.u a

theorem State.Appended.refl {s : State} (h : s.Inv) : s.Appended 0 s :=
  ⟨h, rfl, rfl, rfl, rfl, fun _ _ => rfl⟩

theorem State.Appended.trans {m n : Nat} {s t r : State} (h : s.Appended m t) (h' : t.Appended n r) :
    s.Appended (n + m) r where
  inv := h'.inv
  err := h'.err.trans h.err
  fixf := h'.fixf.trans h.fixf
  params := h'.params.trans h.params
  cnt := by rw [h'.cnt, h.cnt]; omega
  units a ha := (h'.units a (by rw [h.cnt]; omega)).trans (h.units a ha)

/-- With no fault, room, and a character of the alphabet, PUSH appends one unit (R70). -/
theorem exec_push_appended {s : State} {c : CharCode} (hs : s.Inv) (he : s.err = 0)
    (ha : (alpha s.params c s.fixf).isSome) (hc : s.cnt.toNat < s.params.cap) :
    ∃ t, exec (.push c) s = .next t ∧ s.Appended 1 t := by
  obtain ⟨v, hv⟩ := Option.isSome_iff_exists.mp ha
  exact ⟨_, execPush_of_some he hv hc, hs.push hv hc, rfl, rfl, rfl, hs.toNat_cnt_succ hc,
    fun a hlt => Memory.read_write_other s.u v (Nat.ne_of_gt hlt)⟩

/-- A run of PUSH commands of alphabet characters that the buffer has room for appends them all. -/
theorem run_push_appended {cs : List CharCode} {s : State} (hs : s.Inv) (he : s.err = 0)
    (hi : s.inputs = present (cs.map .push)) (ha : ∀ c ∈ cs, (alpha s.params c s.fixf).isSome)
    (hc : s.cnt.toNat + cs.length ≤ s.params.cap) :
    ∃ t, run cs.length s = .next t ∧ s.Appended cs.length t := by
  induction cs generalizing s with
  | nil => exact ⟨s, rfl, .refl hs⟩
  | cons c cs ih =>
    rw [List.length_cons] at hc
    obtain ⟨t, ht, hst⟩ := exec_push_appended (hs.given (present (cs.map .push))) he
      (ha c List.mem_cons_self) (by simp only [given_cnt, given_params]; omega)
    obtain ⟨-, hinputs, -⟩ := exec_port ht
    obtain ⟨r, hr, htr⟩ := ih hst.inv (hst.err.trans he) hinputs
      (fun d hd => by rw [hst.params, hst.fixf]; exact ha d (List.mem_cons_of_mem _ hd))
      (by rw [hst.cnt, hst.params]; simp only [given_cnt, given_params]; omega)
    have hall : (s.given (present (cs.map .push))).Appended (cs.length + 1) r := hst.trans htr
    exact ⟨r, (run_of_exec hi ht).trans hr, hall.inv, hall.err, hall.fixf, hall.params, hall.cnt,
      hall.units⟩

/-- XTR of a served length inside the buffer returns the field (R90). -/
theorem exec_xtr_readOk {s : State} {len : LenField} {off : OffField} {v : Nat} (he : s.err = 0)
    (hl : 1 ≤ len.toNat ∧ len.toNat ≤ 32) (hb : off.toNat + len.toNat ≤ 6 * s.cnt.toNat)
    (hv : memRead s.u off.toNat len.toNat = some v) :
    ∃ t, exec (.xtr len off) s = .next t ∧ s.ReadOk t v :=
  ⟨_, (execXtr_of_length he hl).trans (readField_of_some hb hv), respond_readOk v s⟩

/-- Settles O33: the field read lies in cells that no PUSH writes. -/
theorem readsStayValidUnderAppends : Obligations.ReadsStayValidUnderAppends := by
  intro s len off cs hs he h1 h32 hb ha hc
  obtain ⟨v, hv, -⟩ := memRead_some (hs.readable hb)
  obtain ⟨s', hs', hok⟩ := exec_xtr_readOk he ⟨h1, h32⟩ hb hv
  obtain ⟨t, ht, happ⟩ := run_push_appended (hs.given (present (cs.map .push))) he rfl ha hc
  have hcnt : t.cnt.toNat = s.cnt.toNat + cs.length := happ.cnt
  have hsame : memRead t.u off.toNat len.toNat = memRead s.u off.toNat len.toNat :=
    memRead_congr fun i hi => happ.units _ (by rw [given_cnt]; omega)
  obtain ⟨t', ht', hok'⟩ := exec_xtr_readOk (happ.err.trans he) ⟨h1, h32⟩ (by omega) (hsame.trans hv)
  exact ⟨t, s', t', v, hs', hok, ht, hcnt, ht', hok'⟩

/-- The one character that the two tables decode differently (R73). -/
theorem alpha_codeOfF {p : Params} (hp : p.wf = true) (f : Bool) :
    alpha p codeOfF f = some (if f then 46 else 45) := by
  rw [alpha_eq_some_iff hp]
  cases f with
  | false => exact .inr (.inr (.inl ⟨rfl, rfl, rfl⟩))
  | true => exact .inr (.inr (.inr (by decide)))

/-- Settles O13: after WCTL f the buffer is still empty, and PUSH decodes under table f. -/
theorem wctlTakesEffectAtTheNextPush : Obligations.WctlTakesEffectAtTheNextPush := by
  intro s f hs he hc
  obtain ⟨hcap, -⟩ := (params_wf_iff _).mp hs.params_wf
  have hcnt : s.cnt.toNat = 0 := by rw [hc]; rfl
  have hwctl : exec (.wctl f) (s.given (present [.push codeOfF])) = .next _ :=
    execWctl_of_empty he hc
  have hpush : exec (.push codeOfF) (respond (okResponse 0) { s.given (present []) with fixf := f }) =
      .next _ :=
    execPush_of_some he (alpha_codeOfF hs.params_wf f) (show s.cnt.toNat < s.params.cap by omega)
  have hrun : run 2 (s.given (present [.wctl f, .push codeOfF])) = .next _ :=
    (run_of_exec (s := s.given _) rfl hwctl).trans (run_of_exec rfl hpush)
  refine ⟨_, hrun, ?_, rfl, ?_, rfl, he⟩
  · cases f <;> simp [okResponse]
  · simp [hc]

end Sys2Proof.Machine
end

section
/-! PROOFS. Successful reads (spec 20_memory.md R36, R44): they change no state, so they repeat and
commute. -/

namespace Sys2Proof.Machine

/-- A fault is no success (R55). -/
theorem raise_not_returns_ok {s : State} {c : BlockFault} {v : Word} :
    ¬s.Returns (raise c s) (okResponse v) :=
  fun h => Bool.noConfusion (congrArg Response.f (h.unique ⟨rfl, rfl⟩))

/-- A success of a command returns one value. -/
theorem eq_of_returns_ok {s : State} {v w : Word}
    (h : s.Returns (respond (okResponse w) s) (okResponse v)) : w = v :=
  congrArg Response.val (h.unique ⟨rfl, rfl⟩).symm

/-- The status word is made of the block's state (R18). -/
theorem statusWord_congr {s s' : State} (h : s.SameBlock s') : statusWord s' = statusWord s := by
  obtain ⟨-, hcnt, herr, hfseen, hfixf, -⟩ := h
  rw [statusWord, hcnt, herr, hfseen, hfixf, ← statusWord]

/-- A field that can be read in a state can be read in every state with the same block. -/
theorem readField_of_sameBlock {s s' : State} {off len v : Nat} (h : s.SameBlock s')
    (hb : off + len ≤ 6 * s.cnt.toNat) (hv : memRead s.u off len = some v) :
    readField off len s' = .next (respond (okResponse (BitVec.ofNat 32 v)) s') := by
  obtain ⟨hu, hcnt, -⟩ := h
  exact readField_of_some (by rw [hcnt]; exact hb) (by rw [hu]; exact hv)

/-- A read that succeeds in a state gives the same value, and changes nothing, in every state with the same
block (R36, R44). -/
theorem exec_read_of_sameBlock {i : Instr} {s s' t : State} {v : Word}
    (hi : isWithinPayload i = true ∧ ∀ c, i ≠ .push c) (hss : s.SameBlock s')
    (h : exec i s = .next t) (hr : s.Returns t (okResponse v)) :
    exec i s' = .next (respond (okResponse v) s') := by
  obtain ⟨-, -, herr, -⟩ := id hss
  cases i with
  | push c => exact absurd rfl (hi.2 c)
  | clr => cases hi.1
  | wctl f => cases hi.1
  | rdst =>
    cases h
    rw [← eq_of_returns_ok hr, ← statusWord_congr hss]
    rfl
  | xtr len off =>
    rcases execXtr_next h with ⟨-, rfl⟩ | ⟨-, -, rfl⟩ | ⟨-, -, -, rfl⟩ | ⟨he, hl, hb, x, hx, rfl⟩
    · exact absurd hr raise_not_returns_ok
    · exact absurd hr raise_not_returns_ok
    · exact absurd hr raise_not_returns_ok
    · rw [exec, execXtr_of_length (herr.trans he) hl, ← eq_of_returns_ok hr]
      exact readField_of_sameBlock hss hb hx
  | xmt =>
    rcases execXmt_next h with ⟨-, rfl⟩ | ⟨-, -, rfl⟩ | ⟨he, hc, x, hx, rfl⟩
    · exact absurd hr raise_not_returns_ok
    · exact absurd hr raise_not_returns_ok
    · have hpos : s.cnt.toNat ≠ 0 := fun h0 => hc (BitVec.eq_of_toNat_eq h0)
      rw [exec, execXmt_of_no_err (herr.trans he), ← eq_of_returns_ok hr]
      exact readField_of_sameBlock hss (by omega) hx

/-- Settles O35: after a successful read the block is the same, where every read that succeeded before
succeeds again. -/
theorem successfulReadsCommute : Obligations.SuccessfulReadsCommute := by
  intro i j s t t' v v' hk hi hri hj hrj
  have hblock : ∀ r, s.SameBlock (respond r s) := fun _ => .refl s
  have hi' : ∀ s', s.SameBlock s' → exec i s' = .next (respond (okResponse v) s') := fun _ hss =>
    exec_read_of_sameBlock (hk i (.inl rfl)) hss hi hri
  have hj' : ∀ s', s.SameBlock s' → exec j s' = .next (respond (okResponse v') s') := fun _ hss =>
    exec_read_of_sameBlock (hk j (.inr rfl)) hss hj hrj
  obtain rfl : respond (okResponse v) s = t :=
    Host.Outcome.next.inj ((hi' s (.refl s)).symm.trans hi)
  obtain rfl : respond (okResponse v') s = t' :=
    Host.Outcome.next.inj ((hj' s (.refl s)).symm.trans hj)
  exact ⟨hblock _, ⟨_, hi' _ (hblock _), .refl _, rfl, rfl⟩, ⟨_, hj' _ (hblock _), .refl _, rfl, rfl⟩,
    ⟨_, hi' _ (hblock _), .refl _, rfl, rfl⟩⟩

end Sys2Proof.Machine
end

section
/-! PROOFS. Decoding and encoding as arithmetic on the word read as a number (spec 30_encoding.md R63). -/

namespace Sys2Proof

/-- Juxtaposed fields as one number, the first most significant. -/
theorem toNat_append_eq_add {n m : Nat} (x : BitVec n) (y : BitVec m) :
    (x ++ y).toNat = x.toNat * 2 ^ m + y.toNat := by
  rw [BitVec.toNat_append, ← Nat.shiftLeft_add_eq_or_of_lt y.isLt, Nat.shiftLeft_eq]

theorem toNat_encode_push (c : CharCode) : (encode (.push c)).toNat = 0x20000000 + c.toNat :=
  toNat_append_eq_add (0x2#4 ++ 0#20) c

theorem toNat_encode_xtr (len : LenField) (off : OffField) :
    (encode (.xtr len off)).toNat = 0x30000000 + len.toNat * 2 ^ 22 + off.toNat := by
  show (0x3#4 ++ len ++ 0#6 ++ off).toNat = _
  simp only [toNat_append_eq_add, BitVec.toNat_ofNat]
  omega

theorem toNat_encode_wctl (f : Bool) : (encode (.wctl f)).toNat = 0x60000000 + f.toNat := by
  cases f <;> rfl

/-- A word decodes to a command exactly if it is the encoding of that command (R63). -/
theorem decode_eq_ok_iff {w : Word} {i : Instr} : decode w = .ok i ↔ w.toNat = (encode i).toNat := by
  rw [BitVec.toNat_inj]
  exact ⟨fun h => (encode_of_decode h).symm, fun h => h ▸ decode_encode i⟩

/-- The three commands of format N, by OP (R51). -/
theorem decode_eq_operandless_iff {w : Word} {i : Instr} {op : Nat}
    (hi : (encode i).toNat = op * 2 ^ 28) :
    decode w = .ok i ↔ w.toNat / 2 ^ 28 = op ∧ w.toNat % 2 ^ 28 = 0 := by
  rw [decode_eq_ok_iff, hi]
  omega

theorem decode_eq_push_iff {w : Word} {c : CharCode} : decode w = .ok (.push c) ↔
    w.toNat / 2 ^ 28 = 2 ∧ w.toNat / 2 ^ 8 % 2 ^ 20 = 0 ∧ c.toNat = w.toNat % 2 ^ 8 := by
  have hc := c.isLt
  rw [decode_eq_ok_iff, toNat_encode_push]
  omega

theorem decode_eq_xtr_iff {w : Word} {len : LenField} {off : OffField} :
    decode w = .ok (.xtr len off) ↔
      w.toNat / 2 ^ 28 = 3 ∧ w.toNat / 2 ^ 16 % 2 ^ 6 = 0 ∧
        len.toNat = w.toNat / 2 ^ 22 % 2 ^ 6 ∧ off.toNat = w.toNat % 2 ^ 16 := by
  have hlen := len.isLt
  have hoff := off.isLt
  rw [decode_eq_ok_iff, toNat_encode_xtr]
  omega

theorem decode_eq_wctl_iff {w : Word} {f : Bool} : decode w = .ok (.wctl f) ↔
    w.toNat / 2 ^ 28 = 6 ∧ w.toNat / 2 % 2 ^ 27 = 0 ∧ f.toNat = w.toNat % 2 := by
  have hf := f.toNat_lt
  rw [decode_eq_ok_iff, toNat_encode_wctl]
  omega

/-- Settles O2: the words that decode to a command are the one word that encodes it. -/
theorem decodeAndEncodeAreInverse : Obligations.DecodeAndEncodeAreInverse :=
  ⟨fun _ => ⟨decode_eq_operandless_iff rfl, fun _ => decode_eq_push_iff,
      fun _ _ => decode_eq_xtr_iff, decode_eq_operandless_iff rfl, decode_eq_operandless_iff rfl,
      fun _ => decode_eq_wctl_iff⟩,
    rfl, toNat_encode_push, toNat_encode_xtr, rfl, rfl, toNat_encode_wctl, decode_encode,
    fun _ _ => encode_of_decode, rfl⟩

/-- Settles O1 by running the decoder on each word. -/
theorem sampleWordsDecodeToTheirCommands : Obligations.SampleWordsDecodeToTheirCommands := by
  unfold Obligations.SampleWordsDecodeToTheirCommands
  decide

end Sys2Proof
end

section
/-! PROOFS. The opcode map: the masks and matches name the decoded commands (spec 30_encoding.md R59). -/

namespace Sys2Proof

/-- A field that the mask of a row covers is in a word of the row what it is in the row's match (R59). -/
theorem slice_of_covered {r : OpcodeRow} {w : Word} (h : w &&& r.mask = r.pattern) {lo n : Nat}
    (hm : slice r.mask lo n = BitVec.allOnes n) : slice w lo n = slice r.pattern lo n := by
  have hand : slice (w &&& r.mask) lo n = slice w lo n &&& slice r.mask lo n :=
    BitVec.extractLsb'_and
  rw [← h, hand, hm, BitVec.and_allOnes]

/-- A word that a row names decodes to a command of the row: the mask covers OP and the reserved bits,
and the match has them 0 (R59). -/
theorem decode_of_names {r : OpcodeRow} (hr : r ∈ opcodeTable) {w : Word}
    (h : w &&& r.mask = r.pattern) : ∃ i, decode w = .ok i ∧ i.mnemonic = r.mnemonic := by
  have hop := slice_of_covered (lo := 28) (n := 4) h (mask_covers_opcode r hr)
  simp only [opcodeTable, List.mem_cons, List.not_mem_nil, or_false] at hr
  rcases hr with rfl | rfl | rfl | rfl | rfl | rfl
  · exact ⟨.clr, by rw [decode, hop, slice_of_covered (lo := 0) (n := 28) h rfl]; rfl, rfl⟩
  · exact ⟨.push _, by rw [decode, hop, slice_of_covered (lo := 8) (n := 20) h rfl]; rfl, rfl⟩
  · exact ⟨.xtr _ _, by rw [decode, hop, slice_of_covered (lo := 16) (n := 6) h rfl]; rfl, rfl⟩
  · exact ⟨.xmt, by rw [decode, hop, slice_of_covered (lo := 0) (n := 28) h rfl]; rfl, rfl⟩
  · exact ⟨.rdst, by rw [decode, hop, slice_of_covered (lo := 0) (n := 28) h rfl]; rfl, rfl⟩
  · exact ⟨.wctl _, by rw [decode, hop, slice_of_covered (lo := 1) (n := 27) h rfl]; rfl, rfl⟩

/-- Every encoded command is named by its own row (R59). -/
theorem ownRow (i : Instr) : Laws.OwnRow.Statement i := by
  cases i with
  | clr => exact Laws.OwnRow.clr
  | push c => exact Laws.OwnRow.push c
  | xtr len off => exact Laws.OwnRow.xtr len off
  | xmt => exact Laws.OwnRow.xmt
  | rdst => exact Laws.OwnRow.rdst
  | wctl f => exact Laws.OwnRow.wctl f

/-- Settles O3: a word of a row is legal, a legal word is the encoding of its command, and a word of two
rows decodes to one command, whose mnemonic has one row. -/
theorem maskAndMatchNameTheDecodedCommand : Obligations.MaskAndMatchNameTheDecodedCommand := by
  refine ⟨fun r hr w => ⟨decode_of_names hr, ?_⟩, fun r hr r' hr' w h h' => ?_⟩
  · rintro ⟨i, hd, hm⟩
    rw [← encode_of_decode hd]
    exact of_decide_eq_true ((ownRow i r hr).mpr hm.symm)
  · obtain ⟨i, hd, hm⟩ := decode_of_names hr h
    obtain ⟨j, hd', hm'⟩ := decode_of_names hr' h'
    obtain rfl : i = j := Except.ok.inj (hd.symm.trans hd')
    exact row_of_mnemonic r hr r' hr' (hm.symm.trans hm')

end Sys2Proof
end

section
/-! PROOFS. Illegal words: which they are and what a step on one does (spec 30_encoding.md R60, R61;
60_exceptions.md R146). -/

namespace Sys2Proof

theorem toNat_slice (w : Word) (lo n : Nat) : (slice w lo n).toNat = w.toNat / 2 ^ lo % 2 ^ n := by
  rw [slice, BitVec.extractLsb'_toNat, Nat.shiftRight_eq_div_pow]

theorem toNat_opcode (w : Word) : (slice w 28 4).toNat = w.toNat / 2 ^ 28 := by
  rw [toNat_slice]
  omega

theorem ifZero_eq_reservedBits_iff {z : Bool} {i : Instr} :
    ifZero z i = .error .reservedBits ↔ z = false := by
  cases z <;> simp [ifZero]

/-- A word with the OP of a command is illegal exactly if a reserved bit is 1 (R61). -/
theorem ifZero_slice_eq_reservedBits_iff {w : Word} {lo n : Nat} {i : Instr} :
    ifZero (slice w lo n == 0) i = .error .reservedBits ↔ w.toNat / 2 ^ lo % 2 ^ n ≠ 0 := by
  rw [ifZero_eq_reservedBits_iff, beq_eq_false_iff_ne, ne_eq, ← BitVec.toNat_inj, toNat_slice,
    BitVec.ofNat_eq_ofNat, BitVec.toNat_zero]

theorem ifZero_ne_reservedOpcode {z : Bool} {i : Instr} : ifZero z i ≠ .error .reservedOpcode := by
  cases z <;> exact nofun

theorem decode_eq_reservedOpcode_iff {w : Word} : decode w = .error .reservedOpcode ↔
    w.toNat / 2 ^ 28 = 0 ∨ 7 ≤ w.toNat / 2 ^ 28 := by
  rw [decode, toNat_opcode]
  split
  case h_7 => simp only [imp_false, true_iff] at *; omega
  all_goals simp only [ifZero_ne_reservedOpcode, false_iff]; omega

theorem decode_eq_reservedBits_iff {w : Word} : decode w = .error .reservedBits ↔
    ((w.toNat / 2 ^ 28 = 1 ∨ w.toNat / 2 ^ 28 = 4 ∨ w.toNat / 2 ^ 28 = 5) ∧
      w.toNat % 2 ^ 28 ≠ 0) ∨
    (w.toNat / 2 ^ 28 = 2 ∧ w.toNat / 2 ^ 8 % 2 ^ 20 ≠ 0) ∨
    (w.toNat / 2 ^ 28 = 3 ∧ w.toNat / 2 ^ 16 % 2 ^ 6 ≠ 0) ∨
    (w.toNat / 2 ^ 28 = 6 ∧ w.toNat / 2 % 2 ^ 27 ≠ 0) := by
  rw [decode, toNat_opcode]
  split
  case h_7 => simp only [imp_false, Except.error.injEq, reduceCtorEq, false_iff] at *; omega
  all_goals rw [ifZero_slice_eq_reservedBits_iff]; omega

/-- Settles O4: the step on an illegal word takes the fault IllegalCommand, whose code is 5. -/
theorem reservedWordsRaiseIllegalCommand : Obligations.ReservedWordsRaiseIllegalCommand :=
  fun _ => ⟨decode_eq_reservedOpcode_iff, decode_eq_reservedBits_iff, fun _ _ _ hd hi =>
    ⟨_, Machine.step_illegal hi hd, Machine.raise_takesFault .illegalCommand _⟩⟩

end Sys2Proof
end

section
/-! PROOFS. The number of legal words (spec 30_encoding.md R62). -/

namespace Sys2Proof

/-- The words that decode to one of several commands are as many as these commands (R62). -/
theorem card_words {α : Type} {f : α → Instr} (hf : f.Injective) {p : Word → Prop}
    (hp : ∀ w, p w ↔ ∃ a, decode w = .ok (f a)) : Nat.card { w : Word // p w } = Nat.card α := by
  have hencode : encode.Injective := fun i j h =>
    Except.ok.inj ((decode_encode i).symm.trans (h ▸ decode_encode j))
  have hwords : { w : Word | p w } = Set.range (encode ∘ f) :=
    Set.ext fun w => (hp w).trans (exists_congr fun a => by
      rw [decode_eq_ok_iff, BitVec.toNat_inj, eq_comm, Function.comp_apply])
  exact (congrArg (fun s : Set Word => Nat.card s) hwords).trans
    (Nat.card_range_of_injective (hencode.comp hf))

/-- The commands as the sum of their operands, in the order of the opcode map. -/
def Instr.equivOperands :
    Instr ≃ Unit ⊕ CharCode ⊕ (LenField × OffField) ⊕ Unit ⊕ Unit ⊕ Bool where
  toFun
    | .clr => .inl ()
    | .push c => .inr (.inl c)
    | .xtr len off => .inr (.inr (.inl (len, off)))
    | .xmt => .inr (.inr (.inr (.inl ())))
    | .rdst => .inr (.inr (.inr (.inr (.inl ()))))
    | .wctl f => .inr (.inr (.inr (.inr (.inr f))))
  invFun
    | .inl () => .clr
    | .inr (.inl c) => .push c
    | .inr (.inr (.inl (len, off))) => .xtr len off
    | .inr (.inr (.inr (.inl ()))) => .xmt
    | .inr (.inr (.inr (.inr (.inl ())))) => .rdst
    | .inr (.inr (.inr (.inr (.inr f)))) => .wctl f
  left_inv i := by cases i <;> rfl
  right_inv x := by rcases x with _ | _ | _ | _ | _ | _ <;> rfl

theorem card_bitVec (n : Nat) : Nat.card (BitVec n) = 2 ^ n := by
  rw [Nat.card_congr BitVec.equivFin.toEquiv, Nat.card_fin]

theorem card_instr : Nat.card Instr = 1 + 256 + 4194304 + 1 + 1 + 2 := by
  rw [Nat.card_congr Instr.equivOperands]
  simp only [Nat.card_sum, Nat.card_prod, Nat.card_unique, card_bitVec,
    Nat.card_eq_fintype_card (α := Bool), Fintype.card_bool]
  rfl

/-- The lengths that XTR serves (R92). -/
theorem card_servedLengths : Nat.card { len : LenField // 1 ≤ len.toNat ∧ len.toNat ≤ 32 } = 32 := by
  rw [Nat.card_eq_fintype_card]
  decide

theorem xtr_injective : Function.Injective fun x : LenField × OffField => Instr.xtr x.1 x.2 :=
  fun _ _ h => by
    injection h with hlen hoff
    exact Prod.ext hlen hoff

/-- Settles O5: legal words are as many as commands, and XTR words as many as their operands. -/
theorem legalWordsAreCounted : Obligations.LegalWordsAreCounted := by
  refine ⟨(card_words Function.injective_id fun _ => Iff.rfl).trans card_instr, ?_, ?_⟩
  · rw [card_words xtr_injective fun w => Prod.exists.symm, Nat.card_prod, card_bitVec, card_bitVec]
    rfl
  · have hserved : Function.Injective
        fun x : { len : LenField // 1 ≤ len.toNat ∧ len.toNat ≤ 32 } × OffField =>
          Instr.xtr x.1 x.2 :=
      xtr_injective.comp (Subtype.val_injective.prodMap Function.injective_id)
    rw [card_words hserved fun w => ⟨fun ⟨len, off, hd, hlen⟩ => ⟨(⟨len, hlen⟩, off), hd⟩,
        fun ⟨(⟨len, hlen⟩, off), hd⟩ => ⟨len, off, hd, hlen⟩⟩,
      Nat.card_prod, card_servedLengths, card_bitVec]
    rfl

end Sys2Proof
end

section
/-! PROOFS. The response as one value, and the assembler's lines (spec 30_encoding.md R55, R64 to R66). -/

namespace Sys2Proof.Machine

/-- Settles O36: the fields of RSP stand one after the other, F first. -/
theorem responsePacksIntoThirtySixBits : Obligations.ResponsePacksIntoThirtySixBits := by
  intro r
  have hf : r.packed.getLsbD 35 = r.f := by
    rw [Response.packed, BitVec.getLsbD_append, BitVec.getLsbD_append]
    simp
  have hcode : r.packed.extractLsb' 32 3 = r.code := by
    rw [Response.packed, BitVec.extractLsb'_append_eq_of_le (Nat.le_refl 32)]
    exact BitVec.extractLsb'_append_eq_right
  have hval : r.packed.extractLsb' 0 32 = r.val := BitVec.extractLsb'_append_eq_right
  have hsum : r.packed.toNat = r.f.toNat * 2 ^ 35 + r.code.toNat * 2 ^ 32 + r.val.toNat := by
    rw [Response.packed, toNat_append_eq_add, toNat_append_eq_add, BitVec.toNat_ofBool]
    omega
  exact ⟨hf, hcode, hval, hsum⟩

/-- Settles O6 by running the assembler on each line. -/
theorem assemblerLinesGiveTheirWords : Obligations.AssemblerLinesGiveTheirWords := by
  unfold Obligations.AssemblerLinesGiveTheirWords
  decide +kernel

end Sys2Proof.Machine
end

section
/-! PROOFS. `DECODE` (spec 30_encoding.md R65): what its commands have done after each character. -/

namespace Sys2Proof.Machine

/-- The responses to the PUSH commands of characters of the alphabet (R70). -/
def unitResponses (p : Params) (fixf : Bool) (cs : List CharCode) : List Response :=
  cs.filterMap fun c => (alpha p c fixf).map fun v => okResponse (v.setWidth 32)

/-- `t` is `s` after CLR and a successful PUSH of each of `cs`: the buffer holds the decode of `cs` and
nothing else (R65). -/
structure State.Decoded (s : State) (cs : List CharCode) (t : State) : Prop where
  err : t.err = 0
  cnt : t.cnt.toNat = cs.length
  units : ∀ a, Memory.read t.u a = cs[a]?.bind (alpha s.params · s.fixf)
  fseen : t.fseen = decide (codeOfF ∈ cs)
  fixf : t.fixf = s.fixf
  params : t.params = s.params
  responses : t.responses = s.responses ++ okResponse 0 :: unitResponses s.params s.fixf cs

theorem State.Decoded.clr (s : State) : s.Decoded [] (respond (okResponse 0) (clearMessage s)) :=
  ⟨rfl, rfl, fun _ => rfl, rfl, rfl, rfl, rfl⟩

/-- One more character (R70). -/
theorem State.Decoded.push {s t : State} {cs : List CharCode} {c : CharCode} {v : Unit6}
    (h : s.Decoded cs t) (hv : alpha s.params c s.fixf = some v) (hc : cs.length < 2 ^ 16 - 1) :
    s.Decoded (cs ++ [c]) (finishPush c v
      { t with u := Memory.write t.u (appendAddress t) v, cnt := t.cnt + 1 }) where
  err := h.err
  cnt := by
    have hcnt : (t.cnt + 1).toNat = t.cnt.toNat + 1 :=
      BitVec.toNat_add_of_lt (show t.cnt.toNat + 1 < 2 ^ 16 by rw [h.cnt]; omega)
    rw [finishPush_cnt, hcnt, h.cnt, List.length_append, List.length_singleton]
  units a := by
    rw [finishPush_u, Memory.read_write, appendAddress, h.cnt, h.units]
    by_cases ha : cs.length = a
    · rw [if_pos ha, ← ha, List.getElem?_concat_length, Option.bind_some, hv]
    · rw [if_neg ha]
      rcases Nat.lt_or_gt_of_ne ha with hlt | hgt
      · rw [List.getElem?_eq_none hlt.le, List.getElem?_eq_none (by simpa using hlt)]
      · rw [List.getElem?_append_left hgt]
  fseen := by
    rw [finishPush_fseen, h.fseen]
    by_cases hf : c = codeOfF
    · simp [hf]
    · simp [hf, Ne.symm hf]
  fixf := h.fixf
  params := h.params
  responses := by
    rw [finishPush_responses, h.responses, unitResponses, unitResponses, List.filterMap_append]
    simp [hv]

/-- CLR of `DECODE`, whatever the host presents after it. -/
theorem run_clr {k : Nat} {s : State} {is : List Instr} :
    run (k + 1) (s.given (present (.clr :: is))) =
      run k ((respond (okResponse 0) (clearMessage s)).given (present is)) :=
  run_of_exec rfl rfl

/-- A run of PUSH commands of alphabet characters that the buffer has room for decodes them all, whatever
the host presents after them. -/
theorem run_push_decoded {s : State} {is : List Instr} {t : State} (hp : s.params.wf = true)
    {done cs : List CharCode} (ht : s.Decoded done t)
    (ha : ∀ c ∈ cs, (alpha s.params c s.fixf).isSome) (hc : done.length + cs.length ≤ s.params.cap) :
    ∃ r, run cs.length (t.given (present (cs.map .push ++ is))) = .next (r.given (present is)) ∧
      s.Decoded (done ++ cs) r := by
  induction cs generalizing done t with
  | nil => exact ⟨t, rfl, by rwa [List.append_nil]⟩
  | cons c cs ih =>
    obtain ⟨-, hcap, -⟩ := (params_wf_iff _).mp hp
    rw [List.length_cons] at hc
    obtain ⟨v, hv⟩ := Option.isSome_iff_exists.mp (ha c List.mem_cons_self)
    have hpush : exec (.push c) (t.given (present (cs.map .push ++ is))) = .next _ :=
      execPush_of_some ht.err (by rw [given_params, given_fixf, ht.params, ht.fixf]; exact hv)
        (by rw [given_cnt, given_params, ht.cnt, ht.params]; omega)
    obtain ⟨r, hr, hdec⟩ := ih (ht.push hv (by omega))
      (fun d hd => ha d (List.mem_cons_of_mem _ hd))
      (by rw [List.length_append, List.length_singleton]; omega)
    exact ⟨r, (run_of_exec (s := t.given _) rfl hpush).trans hr, by rwa [List.append_assoc] at hdec⟩

/-- In the aborted state a run of commands other than CLR and RDST only responds MessageAborted (R154). -/
theorem run_aborted {is : List Instr} {s : State} (he : s.err ≠ 0) (hi : s.inputs = present is)
    (hscoped : ∀ i ∈ is, i ≠ .clr ∧ i ≠ .rdst) :
    ∃ t, run is.length s = .next t ∧ s.SameBlock t ∧
      t.responses = s.responses ++ List.replicate is.length (faultResponse .messageAborted) := by
  induction is generalizing s with
  | nil => exact ⟨s, rfl, .refl s, (List.append_nil _).symm⟩
  | cons i is ih =>
    obtain ⟨hclr, hrdst⟩ := hscoped i List.mem_cons_self
    have hexec := exec_of_err (s := s.given (present is)) he hclr hrdst
    rw [raise_of_err (s := s.given (present is)) _ he] at hexec
    obtain ⟨t, ht, hsame, hresp⟩ := ih
      (s := respond (faultResponse .messageAborted) (s.given (present is))) he rfl
      fun j hj => hscoped j (List.mem_cons_of_mem _ hj)
    refine ⟨t, (run_of_exec hi hexec).trans ht, hsame, ?_⟩
    rw [hresp, respond_responses, given_responses, List.append_assoc]
    rfl

/-- Settles O21: CLR empties the buffer, each good character appends its unit, the first bad one latches
InvalidCharacter, and every later one only responds. -/
theorem decodeFillsTheBufferOrAborts : Obligations.DecodeFillsTheBufferOrAborts := by
  refine ⟨rfl, fun cs => by simp [decodeCommands], ?_, ?_⟩
  · intro s cs hp hc ha
    obtain ⟨t, ht, hdec⟩ := run_push_decoded (is := []) hp (.clr s) ha (by simpa using hc)
    rw [List.append_nil] at ht
    exact ⟨_, run_clr.trans ht, hdec.cnt, hdec.units, hdec.err, hdec.fseen, hdec.fixf, hdec.responses⟩
  · intro s good rest bad hp hc ha hbad
    obtain ⟨t, ht, hdec⟩ := run_push_decoded (is := (bad :: rest).map .push) hp (.clr s) ha
      (by simpa using hc)
    have hinvalid : exec (.push bad) (t.given (present (rest.map .push))) = .next _ :=
      execPush_of_none hdec.err (by rw [given_params, given_fixf, hdec.params, hdec.fixf]; exact hbad)
    have herr : (raise .invalidCharacter (t.given (present (rest.map .push)))).err = 1 := by
      rw [raise_err, given_err, hdec.err]
      rfl
    obtain ⟨r, hr, ⟨hu, hcnt, hre, -⟩, hresp⟩ := run_aborted (is := rest.map .push)
      (s := raise .invalidCharacter (t.given (present (rest.map .push))))
      (by rw [herr]; decide) rfl (by simp)
    rw [List.length_map] at hr hresp
    have hrest : run (rest.length + 1) (t.given (present ((bad :: rest).map .push))) = .next r :=
      (run_of_exec (s := t.given _) rfl hinvalid).trans hr
    refine ⟨r, ?_, ?_, hre.trans herr, fun a => ?_, ?_⟩
    · rw [decodeCommands, List.map_append,
        show good.length + rest.length + 2 = good.length + (rest.length + 1) + 1 by omega]
      exact run_clr.trans (run_append ht hrest)
    · rw [hcnt]; exact hdec.cnt
    · rw [hu]; exact hdec.units a
    · rw [hresp, raise_responses, given_responses, hdec.responses]
      simp [unitResponses, okResponse, faultResponse, BlockFault.code]

end Sys2Proof.Machine
end

section
/-! PROOFS. The two tables and the armoring inverse (spec 40_armor_decoder.md R71 to R73, R77). Armoring
inverts both tables but for 0x66 under the reference table, so it says which characters collide. -/

namespace Sys2Proof.Machine

/-- The tables differ in the row of 0x66 only (R71). -/
theorem alpha_table_irrelevant (p : Params) {c : CharCode} (hc : c ≠ codeOfF) (f g : Bool) :
    alpha p c f = alpha p c g := by
  simp only [alpha, hc, false_and]

/-- Armoring inverts the decoding of every character but 0x66 under the reference table (R77). -/
theorem alpha_eq_some_iff_armor {p : Params} (hp : p.wf = true) {c : CharCode} {f : Bool}
    (hc : ¬(c = codeOfF ∧ f = false)) (v : Unit6) :
    alpha p c f = some v ↔ armor p v f = some c := by
  have hv := v.isLt
  rw [eq_codeOfF_iff] at hc
  rw [alpha_eq_some_iff hp, armor_eq_some_iff]
  constructor
  · rintro (⟨hlo, hhi, h⟩ | ⟨h40, h⟩ | ⟨h66, hf, -⟩ | ⟨hlo, hhi, -, h⟩)
    · exact .inl (by omega)
    · exact .inr (.inl ⟨h, h40⟩)
    · exact absurd ⟨h66, hf⟩ hc
    · exact .inr (.inr ⟨by omega, fun ⟨h46, hf⟩ => hc ⟨by omega, hf⟩, by omega⟩)
  · rintro (⟨h39, h⟩ | ⟨h, h40⟩ | ⟨h41, -, h⟩)
    · exact .inl (by omega)
    · exact .inr (.inl ⟨h40, h⟩)
    · exact .inr (.inr (.inr ⟨by omega, by omega, hc, by omega⟩))

theorem alpha_corrected_iff_armor {p : Params} (hp : p.wf = true) (c : CharCode) (v : Unit6) :
    alpha p c true = some v ↔ armor p v true = some c :=
  alpha_eq_some_iff_armor hp (by simp) v

theorem alpha_reference_iff_armor {p : Params} (hp : p.wf = true) {c : CharCode} (hc : c ≠ codeOfF)
    (v : Unit6) : alpha p c false = some v ↔ armor p v false = some c :=
  alpha_eq_some_iff_armor hp (fun h => hc h.1) v

/-- 46 is the only value without a character, and only under the reference table (R77). -/
theorem armor_exists (p : Params) {v : Unit6} {f : Bool} (h : ¬(v.toNat = 46 ∧ f = false)) :
    ∃ c, armor p v f = some c := by
  unfold armor
  split_ifs
  · exact ⟨_, rfl⟩
  · exact ⟨_, rfl⟩
  · exact ⟨_, rfl⟩

/-- The corrected table is a bijection (R73). -/
theorem alpha_corrected_existsUnique {p : Params} (hp : p.wf = true) (v : Unit6) :
    ∃! c, alpha p c true = some v := by
  obtain ⟨c, hc⟩ := armor_exists p (v := v) (f := true) (by simp)
  refine ⟨c, (alpha_corrected_iff_armor hp c v).mpr hc, fun d hd => ?_⟩
  exact Option.some.inj (((alpha_corrected_iff_armor hp d v).mp hd).symm.trans hc)

/-- Armoring 45 under the reference table gives 'e', the character that decodes to 45 beside 'f'. -/
theorem eq_e_of_alpha_reference_eq_f {p : Params} (hp : p.wf = true) {c : CharCode}
    (hc : c ≠ codeOfF) (h : alpha p c false = alpha p codeOfF false) : c = 0x65 := by
  rw [alpha_codeOfF hp, alpha_reference_iff_armor hp hc] at h
  exact (Option.some.inj h).symm

/-- No two characters but 'e' and 'f' collide under the reference table (R73). -/
theorem alpha_reference_collision {p : Params} (hp : p.wf = true) {c c' : CharCode} {v : Unit6}
    (h : alpha p c false = some v) (h' : alpha p c' false = some v) :
    c = c' ∨ (c = 0x65 ∧ c' = codeOfF) ∨ (c = codeOfF ∧ c' = 0x65) := by
  by_cases hc : c = codeOfF <;> by_cases hc' : c' = codeOfF
  · exact .inl (hc.trans hc'.symm)
  · exact .inr (.inr ⟨hc, eq_e_of_alpha_reference_eq_f hp hc' (hc ▸ h'.trans h.symm)⟩)
  · exact .inr (.inl ⟨eq_e_of_alpha_reference_eq_f hp hc (hc' ▸ h.trans h'.symm), hc'⟩)
  · rw [alpha_reference_iff_armor hp hc] at h
    rw [alpha_reference_iff_armor hp hc'] at h'
    exact .inl (Option.some.inj (h.symm.trans h'))

/-- Only CH40 decodes to 40 (R73). -/
theorem alpha_eq_40_iff {p : Params} (hp : p.wf = true) (c : CharCode) (f : Bool) :
    alpha p c f = some 40 ↔ c = p.ch40 := by
  have h40 : (40 : Unit6).toNat = 40 := rfl
  rw [alpha_eq_some_iff hp, h40, ← BitVec.toNat_inj]
  omega

/-- Settles O18: armoring inverts each table where it is injective, and at 0x66 both values are known. -/
theorem tablesCollideOnlyAtEAndF : Obligations.TablesCollideOnlyAtEAndF := by
  intro p hp
  have he : alpha p 0x65 false = some 45 := (alpha_reference_iff_armor hp (by decide) 45).mpr rfl
  exact ⟨alpha_corrected_existsUnique hp, he, alpha_codeOfF hp false, alpha_codeOfF hp true,
    alpha_reference_ne_46 hp, fun _ _ _ => alpha_reference_collision hp,
    fun _ hc => alpha_table_irrelevant p hc _ _, alpha_eq_40_iff hp⟩

/-- Armoring from 41 on (R77). -/
theorem armor_of_ge_41 (p : Params) {v : Unit6} {f : Bool} (hv : 41 ≤ v.toNat)
    (h : ¬(v = 46 ∧ f = false)) : armor p v f = some (BitVec.ofNat 8 (0x61 + (v.toNat - 41))) := by
  unfold armor
  rw [if_neg (by omega), if_neg (by omega), if_neg fun h46 => h ⟨BitVec.eq_of_toNat_eq h46.1, h46.2⟩]

/-- Settles O19, by the inverse under each table. -/
theorem armoringUndoesDecoding : Obligations.ArmoringUndoesDecoding := by
  intro p hp
  refine ⟨fun v hv f => if_pos hv, fun f => rfl, fun v hv f => armor_of_ge_41 p hv, rfl,
    fun c v hc => (alpha_reference_iff_armor hp hc v).mp, fun v hv => ?_,
    fun c v => (alpha_corrected_iff_armor hp c v).mp, fun v => ?_⟩
  · obtain rfl : 45 = v := Option.some.inj ((alpha_codeOfF hp false).symm.trans hv)
    rfl
  · obtain ⟨c, hc⟩ := armor_exists p (v := v) (f := true) (by simp)
    exact ⟨c, hc, (alpha_corrected_iff_armor hp c v).mpr hc⟩

/-- Settles O16, code by code. -/
theorem alphabetIsTheTableOfTheSpec : Obligations.AlphabetIsTheTableOfTheSpec := by
  unfold Obligations.AlphabetIsTheTableOfTheSpec
  decide +kernel

/-- The codes outside this hardware's alphabet (R72). -/
theorem alpha_hardware_eq_none_iff (c : CharCode) (f : Bool) : alpha Params.hardware c f = none ↔
    c.toNat ≤ 0x26 ∨ (0x28 ≤ c.toNat ∧ c.toNat ≤ 0x2F) ∨
    (0x58 ≤ c.toNat ∧ c.toNat ≤ 0x60) ∨ 0x78 ≤ c.toNat := by
  have h27 : Params.hardware.ch40.toNat = 0x27 := rfl
  rw [alpha_eq_none_iff, ne_eq, ← BitVec.toNat_inj, h27]
  omega

/-- Settles O17: the codes outside the alphabet are four ranges, whose members are counted. -/
theorem codesOutsideTheAlphabet : Obligations.CodesOutsideTheAlphabet := by
  refine fun f => ⟨fun c => alpha_hardware_eq_none_iff c f, ?_⟩
  simp only [alpha_hardware_eq_none_iff]
  decide +kernel

end Sys2Proof.Machine
end

section
/-! PROOFS. PUSH (spec 40_armor_decoder.md R70, R74, R75): its faults, and the stream after it appends. -/

namespace Sys2Proof.Machine

/-- The stream bits of the cell written are the unit's, first bit most significant (R30, R32). -/
theorem bufBit_write_same (m : Memory) (a : Nat) (v : Unit6) {j : Nat} (hj : j < 6) :
    bufBit (Memory.write m a v) (6 * a + j) = some (v.getLsbD (5 - j)) := by
  rw [bufBit_unit _ a hj, Memory.read_write_same, Option.map_some]

/-- The stream bits of other cells stay (R32). -/
theorem bufBit_write_other (m : Memory) {a k : Nat} (v : Unit6) (h : a ≠ k / 6) :
    bufBit (Memory.write m a v) k = bufBit m k := by
  rw [bufBit_eq, bufBit_eq, Memory.read_write_other m v h]

/-- With room in the buffer of a legal chip, CNT + 1 does not wrap in its 16 bits (R5, R14). -/
theorem toNat_cnt_succ_of_room {s : State} (hp : s.params.wf = true)
    (hc : s.cnt.toNat < s.params.cap) : (s.cnt + 1).toNat = s.cnt.toNat + 1 := by
  obtain ⟨-, hcap, -⟩ := (params_wf_iff _).mp hp
  exact BitVec.toNat_add_of_lt (show s.cnt.toNat + 1 < 2 ^ 16 by omega)

/-- Without a fault before it, a fault other than MessageAborted puts its code in ERR (R153). -/
theorem raise_err_of_no_err {s : State} {c : BlockFault} (he : s.err = 0) (hc : c ≠ .messageAborted) :
    (raise c s).err = c.code := if_pos ⟨hc, he⟩

/-- Settles O20, outcome by outcome in the order of the checks. -/
theorem pushDecodesAndAppends : Obligations.PushDecodesAndAppends := by
  refine fun s c => ⟨toNat_encode_push c, fun he => ?_, fun he ha => ?_, fun he ⟨v, ha⟩ hc => ?_,
    fun v hp he ha hc => ?_⟩
  · exact ⟨_, exec_of_err he nofun nofun, raise_takesFault .messageAborted s⟩
  · exact ⟨_, execPush_of_none he ha, raise_takesFault .invalidCharacter s,
      raise_err_of_no_err he nofun⟩
  · exact ⟨_, execPush_of_full he ha hc, raise_takesFault .bufferOverflow s,
      raise_err_of_no_err he nofun⟩
  · have hcells (a : Nat) : Memory.read (Memory.write s.u (appendAddress s) v) a =
        if a = appendAddress s then some v else Memory.read s.u a := by
      simp only [Memory.read_write, eq_comm (a := a)]
    exact ⟨_, execPush_of_some he ha hc, ⟨rfl, rfl⟩, rfl, hcells,
      fun j => bufBit_write_same s.u s.cnt.toNat v,
      fun k hk => bufBit_write_other s.u v (show s.cnt.toNat ≠ k / 6 by omega),
      toNat_cnt_succ_of_room hp hc, finishPush_fseen_eq_or c v _, rfl, rfl, rfl⟩

end Sys2Proof.Machine
end

section
/-! PROOFS. A payload with reads between its characters (spec 40_armor_decoder.md R78): after each
successful command the block is as `DECODE` of the characters pushed so far leaves it. -/

namespace Sys2Proof.Machine

theorem pushedCodes_cons (i : Instr) (is : List Instr) :
    pushedCodes (i :: is) = pushedCodes [i] ++ pushedCodes is := by
  cases i <;> rfl

/-- A PUSH that appends does the same to the same block (R70). -/
theorem State.SameBlock.push {s t : State} (h : s.SameBlock t) (c : CharCode) (v : Unit6) :
    (finishPush c v { s with u := Memory.write s.u (appendAddress s) v, cnt := s.cnt + 1 }).SameBlock
      (finishPush c v { t with u := Memory.write t.u (appendAddress t) v, cnt := t.cnt + 1 }) := by
  obtain ⟨hu, hcnt, herr, hfseen, hfixf, hparams⟩ := h
  simp [SameBlock, appendAddress, hu, hcnt, herr, hfseen, hfixf, hparams]

/-- An empty, fault-free buffer is as CLR leaves it (R110). -/
theorem clearMessage_sameBlock_of_empty {s : State} (h : s.Inv) (hc : s.cnt = 0) (he : s.err = 0) :
    (respond (okResponse 0) (clearMessage s)).SameBlock s := by
  have hfseen : s.fseen = false := by
    by_contra hf
    have hpos := h.fseen_cnt (Bool.not_eq_false _ ▸ hf)
    simp [hc] at hpos
  exact ⟨h.u_eq_nil hc, hc, he, hfseen, rfl, rfl⟩

/-- A successful command within a payload decodes the character it pushes, if it pushes one, and leaves the
block otherwise (R36, R70). -/
theorem exec_withinPayload_decoded {s r t u : State} {done : List CharCode} {i : Instr} {x : Response}
    (hp : s.params.wf = true) (hr : s.Decoded done r) (hrt : r.SameBlock t)
    (hk : isWithinPayload i = true) (h : exec i t = .next u) (hx : t.Returns u x)
    (hok : x.f = false) :
    ∃ r', s.Decoded (done ++ pushedCodes [i]) r' ∧ r'.SameBlock u := by
  have hread (hi : pushedCodes [i] = []) (htu : t.SameBlock u) :
      ∃ r', s.Decoded (done ++ pushedCodes [i]) r' ∧ r'.SameBlock u :=
    ⟨r, by rwa [hi, List.append_nil], hrt.trans htu⟩
  rcases exec_next h with ⟨c, -, -, -, -, rfl⟩ | ⟨rfl, -⟩ | ⟨rfl, rfl⟩ | ⟨-, hi, v, rfl⟩ |
    ⟨-, -, f, rfl, -⟩ | ⟨-, hc, c, v, rfl, hv, rfl⟩
  · obtain ⟨hfault, -⟩ := raise_takesFault c t
    cases hfault.unique hx
    cases hok
  · cases hk
  · exact hread rfl (.refl t)
  · rcases hi with ⟨len, off, rfl⟩ | rfl
    · exact hread rfl (.refl t)
    · exact hread rfl (.refl t)
  · cases hk
  · obtain ⟨-, hcnt, -, -, hfixf, hparams⟩ := id hrt
    obtain ⟨-, hcap, -⟩ := (params_wf_iff _).mp hp
    rw [hfixf, hparams, hr.fixf, hr.params] at hv
    rw [hcnt, hparams, hr.params, hr.cnt] at hc
    exact ⟨_, hr.push hv (by omega), hrt.push c v⟩

theorem run_succ_next {k : Nat} {s t : State} (h : run (k + 1) s = .next t) :
    ∃ u, step s = .next u ∧ run k u = .next t := by
  rw [run] at h
  cases hs : step s with
  | next u => exact ⟨u, rfl, by rwa [hs] at h⟩
  | fault e => rw [hs] at h; cases h
  | refused e => rw [hs] at h; cases h

/-- A step takes back no response (log entries 3 and 8). -/
theorem step_keeps_responses {s t : State} (h : step s = .next t) : s.responses <+: t.responses := by
  rcases step_next h with ⟨-, rfl⟩ | ⟨rest, -, rfl⟩ | ⟨w, rest, r, -, -, rfl⟩ | ⟨w, rest, i, -, -, he⟩
  · exact ⟨[], List.append_nil _⟩
  · exact ⟨[], List.append_nil _⟩
  · exact ⟨_, rfl⟩
  · obtain ⟨-, -, r, hr, -⟩ := exec_port he
    exact ⟨[r], hr.symm⟩

theorem run_keeps_responses {k : Nat} {s t : State} (h : run k s = .next t) :
    s.responses <+: t.responses := by
  induction k generalizing s with
  | zero => cases h; exact ⟨[], List.append_nil _⟩
  | succ k ih =>
    obtain ⟨u, hu, hk⟩ := run_succ_next h
    exact (step_keeps_responses hu).trans (ih hk)

/-- A pass is good if its first response is a success and the rest of the pass is good (R161). -/
theorem goodPass_of_returns {s u t : State} {x : Response} (hx : s.Returns u x)
    (hu : u.responses <+: t.responses) :
    goodPass s.responses.length (.next t) = true ↔
      x.f = false ∧ goodPass u.responses.length (.next t) = true := by
  obtain ⟨rest, hrest⟩ := hu
  rw [goodPass, goodPass, ← hrest, List.drop_left, hx.1, List.append_assoc, List.drop_left]
  simp

/-- A good run within a payload decodes the characters it pushes after those already there. -/
theorem run_withinPayload_decoded {s r t t' : State} {done : List CharCode} {is : List Instr}
    (hp : s.params.wf = true) (hr : s.Decoded done r) (hrt : r.SameBlock t)
    (hk : ∀ i ∈ is, isWithinPayload i = true) (hi : t.inputs = present is)
    (hrun : run is.length t = .next t') (hgood : goodPass t.responses.length (.next t') = true) :
    ∃ r', s.Decoded (done ++ pushedCodes is) r' ∧ r'.SameBlock t' := by
  induction is generalizing done r t with
  | nil => cases hrun; exact ⟨r, by rwa [pushedCodes, List.append_nil], hrt⟩
  | cons i is ih =>
    obtain ⟨u, hstep, hrest⟩ := run_succ_next hrun
    have hexec : exec i (t.given (present is)) = .next u :=
      (step_legal hi (decode_encode i)).symm.trans hstep
    obtain ⟨-, hinputs, x, hx⟩ := exec_port hexec
    obtain ⟨hok, hgood'⟩ :=
      (goodPass_of_returns (s := t.given _) hx (run_keeps_responses hrest)).mp hgood
    obtain ⟨r', hr', hru⟩ := exec_withinPayload_decoded (t := t.given (present is)) hp hr hrt
      (hk i List.mem_cons_self) hexec hx hok
    rw [pushedCodes_cons, ← List.append_assoc]
    exact ih hr' hru (fun j hj => hk j (List.mem_cons_of_mem _ hj)) hinputs hrest hgood'

/-- Settles O22: the empty buffer is as `DECODE ""` leaves it, and every successful command keeps the block
as `DECODE` of the characters pushed. -/
theorem wholePayloadIsDecodedInOrder : Obligations.WholePayloadIsDecodedInOrder := by
  intro s t cs hs hc he hk hrun hgood
  have hgiven := hs.given (present cs)
  obtain ⟨r, hr, hu, hcnt, -, hfseen, -⟩ := run_withinPayload_decoded hgiven.params_wf (.clr _)
    (clearMessage_sameBlock_of_empty hgiven hc he) hk rfl hrun hgood
  exact ⟨hcnt ▸ hr.cnt, hu ▸ hr.units, hfseen.trans hr.fseen⟩

end Sys2Proof.Machine
end

section
/-! PROOFS. The value of a field (spec 20_memory.md R31, 41_bit_field_extractor.md R96, R97): the weighted
sum of its bits, and the shift and mask of any wider read around it. -/

namespace Sys2Proof.Machine

/-- One more digit, in base `b` with the most significant digit first. -/
theorem sum_digits_succ (b : Nat) (d : Nat → Nat) (n : Nat) :
    ∑ i ∈ Finset.range (n + 1), d i * b ^ (n + 1 - 1 - i) =
      b * (∑ i ∈ Finset.range n, d i * b ^ (n - 1 - i)) + d n := by
  rw [Finset.sum_range_succ, Finset.mul_sum, Nat.add_sub_cancel, Nat.sub_self, pow_zero, mul_one]
  congr 1
  refine Finset.sum_congr rfl fun i hi => ?_
  have hi : i < n := Finset.mem_range.mp hi
  rw [show n - i = n - 1 - i + 1 by omega, pow_succ]
  ring

/-- A field is the sum of its stream bits, the first most significant (R31). -/
theorem memRead_eq_sum {m : Memory} {k n : Nat} {bit : Nat → Bool}
    (h : ∀ i, i < n → bufBit m (k + i) = some (bit i)) :
    memRead m k n = some (∑ i ∈ Finset.range n, (bit i).toNat * 2 ^ (n - 1 - i)) := by
  induction n with
  | zero => rfl
  | succ n ih =>
    rw [memRead_succ, ih fun i hi => h i (by omega), h n (by omega),
      sum_digits_succ 2 fun i => (bit i).toNat]
    rfl

/-- Consecutive units are the sum of their values weighted by powers of 64 (R96). -/
theorem unitsValue_eq_sum {m : Memory} {a n : Nat} {unit : Nat → Unit6}
    (h : ∀ i, i < n → Memory.read m (a + i) = some (unit i)) :
    unitsValue m a n = some (∑ i ∈ Finset.range n, (unit i).toNat * 64 ^ (n - 1 - i)) := by
  induction n with
  | zero => rfl
  | succ n ih =>
    rw [unitsValue_succ, ih fun i hi => h i (by omega), h n (by omega),
      sum_digits_succ 64 fun i => (unit i).toNat]
    rfl

/-- A field of `n` bits reads as a number of `n` bits (R31). -/
theorem memRead_lt {m : Memory} {k n v : Nat} (h : memRead m k n = some v) : v < 2 ^ n := by
  obtain ⟨w, hw, hlt⟩ := memRead_some fun i hi => by
    have hbit := bufBit_of_memRead h hi
    rw [bufBit_eq, Option.map_eq_some_iff] at hbit
    obtain ⟨_, hcell, -⟩ := hbit
    exact Option.isSome_of_eq_some hcell
  rwa [Option.some.inj (h.symm.trans hw)]

/-- A field inside a wider read is the wider value, shifted by the bits after the field and masked to the
field's width (R96, R97). -/
theorem memRead_within {m : Memory} {k p n q x : Nat} (h : memRead m k (p + n + q) = some x) :
    memRead m (k + p) n = some ((x >>> q) % 2 ^ n) := by
  simp only [memRead_add, Option.bind_eq_some_iff, Option.map_eq_some_iff] at h
  obtain ⟨_, ⟨before, -, field, hfield, rfl⟩, after, hafter, rfl⟩ := h
  have hshift : ((before * 2 ^ n + field) * 2 ^ q + after) / 2 ^ q = before * 2 ^ n + field := by
    rw [Nat.mul_comm, Nat.mul_add_div (by positivity), Nat.div_eq_of_lt (memRead_lt hafter), add_zero]
  rw [Nat.shiftRight_eq_div_pow, hshift, Nat.mul_comm, Nat.mul_add_mod,
    Nat.mod_eq_of_lt (memRead_lt hfield), hfield]

/-- Settles O26: the stream is one read of all its bits, and every field lies within it. -/
theorem fieldReadIsAShiftOfTheWholeStream : Obligations.FieldReadIsAShiftOfTheWholeStream := by
  intro m unit cnt off len hunit _ _ hb
  have hcells (j : Nat) (hj : j < cnt) : (Memory.read m j).isSome := by rw [hunit j hj]; rfl
  have hstream : streamValue m cnt = some _ :=
    unitsValue_eq_sum fun j hj => by rw [Nat.zero_add]; exact hunit j hj
  have hread := (streamValue_eq_memRead hcells).symm.trans hstream
  rw [show 6 * cnt = off + len + (6 * cnt - off - len) by omega] at hread
  have hfield := memRead_within hread
  rw [Nat.zero_add] at hfield
  exact ⟨hstream, _, hfield, by rw [streamShiftRead, hstream]; rfl⟩

/-- The window of R97 is the bits of its first unit before the field, the field, and the bits shifted
out. -/
theorem window_width {off len : Nat} (h : 1 ≤ len) :
    6 * unitsTouched off len = off % 6 + len + windowShift off len := by
  unfold windowShift unitsTouched
  omega

/-- Shifting and masking the window of R97 gives the field. -/
theorem windowRead_eq_memRead {m : Memory} {cnt off len : Nat}
    (h : ∀ j, j < cnt → (Memory.read m j).isSome) (hl : 1 ≤ len) (hb : off + len ≤ 6 * cnt) :
    ∃ v, memRead m off len = some v ∧ windowRead m off len = some v := by
  have hin : off / 6 + unitsTouched off len ≤ cnt := by unfold unitsTouched; omega
  have hwindow := unitsValue_eq_memRead (m := m) (a := off / 6) (n := unitsTouched off len)
    fun i hi => h _ (by omega)
  obtain ⟨x, hx⟩ := memRead_exists (k := 6 * (off / 6)) (n := 6 * unitsTouched off len) h (by omega)
  have hbits := hx
  rw [window_width hl] at hbits
  have hfield := memRead_within hbits
  rw [Nat.div_add_mod] at hfield
  exact ⟨_, hfield, by rw [windowRead, hwindow, hx]; rfl⟩

/-- Settles O27: the counts are arithmetic of the first and the last unit, and the field lies within the
window. -/
theorem fieldReadIsAWindowShift : Obligations.FieldReadIsAWindowShift := by
  intro m cnt off len h hl _ hb
  have hwidth := window_width (off := off) hl
  have htouched : unitsTouched off len = (off % 6 + len - 1) / 6 + 1 := by unfold unitsTouched; omega
  exact ⟨htouched, by omega, by omega, by omega, by omega, by omega, by omega,
    windowRead_eq_memRead h hl hb⟩

end Sys2Proof.Machine
end

section
/-! PROOFS. XTR and XMT (spec 41_bit_field_extractor.md R90 to R98): their faults, the field they return,
and what it depends on. -/

namespace Sys2Proof.Machine

/-- XTR of a served length past the buffer (R93). -/
theorem exec_xtr_of_out {s : State} {len : LenField} {off : OffField} (he : s.err = 0)
    (hl : 1 ≤ len.toNat ∧ len.toNat ≤ 32) (hout : 6 * s.cnt.toNat < off.toNat + len.toNat) :
    exec (.xtr len off) s = .next (raise .outOfBounds s) :=
  (execXtr_of_length he hl).trans (readField_of_out hout)

/-- XMT on a buffer without a whole unit (R93, R98). -/
theorem exec_xmt_of_out {s : State} (he : s.err = 0) (hout : 6 * s.cnt.toNat < 0 + 6) :
    exec .xmt s = .next (raise .outOfBounds s) :=
  (execXmt_of_no_err he).trans (readField_of_out hout)

/-- The bits of VAL above a field are 0 (R94). -/
theorem getLsbD_above_field {m : Memory} {k n v : Nat} (h : memRead m k n = some v) {j : Nat}
    (hj : n ≤ j) : (BitVec.ofNat 32 v).getLsbD j = false := by
  have hlt : v < 2 ^ j := (memRead_lt h).trans_le (Nat.pow_le_pow_right (by decide) hj)
  rw [BitVec.getLsbD_ofNat, Nat.testBit_lt_two_pow hlt, Bool.and_false]

/-- Settles O23, outcome by outcome in the order of the checks. -/
theorem xtrReadsTheField : Obligations.XtrReadsTheField := by
  refine fun s len off => ⟨toNat_encode_xtr len off, fun he => ?_, fun he hl => ?_,
    fun he h1 h32 hout => ?_, fun he hout => ?_, fun hs he h1 h32 hb => ?_⟩
  · exact ⟨_, exec_of_err he nofun nofun, raise_takesFault .messageAborted s⟩
  · exact ⟨_, execXtr_of_bad_length he (by omega), raise_takesFault .invalidLength s,
      raise_err_of_no_err he nofun⟩
  · exact ⟨_, exec_xtr_of_out he ⟨h1, h32⟩ hout, raise_takesFault .outOfBounds s,
      raise_err_of_no_err he nofun⟩
  · exact ⟨_, exec_xmt_of_out he hout, raise_takesFault .outOfBounds s, raise_err_of_no_err he nofun⟩
  · obtain ⟨v, hv, hlt⟩ := memRead_some (hs.readable hb)
    obtain ⟨t, ht, hok⟩ := exec_xtr_readOk he ⟨h1, h32⟩ hb hv
    have hbits (i : Nat) (hi : i < len.toNat) : bufBit s.u (off.toNat + i) = _ := bufBit_of_memRead hv hi
    have hsum := Option.some.inj (hv.symm.trans (memRead_eq_sum hbits))
    refine ⟨t, v, _, ht, hok, hv, hbits, hsum, hlt, fun i hi => ?_, fun j => getLsbD_above_field hv⟩
    rw [BitVec.getLsbD_ofNat, decide_eq_true (by omega), Bool.true_and]

/-- XMT is XTR 0, 6: the length check cannot fail (R98). -/
theorem exec_xmt_eq_exec_xtr (s : State) : exec .xmt s = exec (.xtr 6 0) s := by
  by_cases he : s.err = 0
  · have hxtr : execXtr 6 0 s = readField 0 6 s := execXtr_of_length he (by decide)
    exact (execXmt_of_no_err he).trans hxtr.symm
  · rw [exec_of_err (i := .xmt) he nofun nofun, exec_of_err (i := .xtr 6 0) he nofun nofun]

/-- Settles O25: the first six bits are the first unit. -/
theorem xmtReadsTheFirstUnit : Obligations.XmtReadsTheFirstUnit := by
  refine ⟨rfl, fun s => ⟨exec_xmt_eq_exec_xtr s, fun he => ?_, fun he hc => ?_, fun hs he hc => ?_⟩⟩
  · exact ⟨_, exec_of_err he nofun nofun, raise_takesFault .messageAborted s⟩
  · exact ⟨_, exec_xmt_of_out he (by rw [hc]; decide), raise_takesFault .outOfBounds s⟩
  · have hpos : s.cnt.toNat ≠ 0 := fun h0 => hc (BitVec.eq_of_toNat_eq h0)
    obtain ⟨v, hv⟩ := Option.isSome_iff_exists.mp (hs.isSome_read (a := 0) (by omega))
    have hread := (execXmt_of_no_err he).trans (readField_of_some (by omega) (memRead_unit hv))
    exact ⟨_, v, hv, hread, respond_readOk v.toNat s⟩

/-- From two states with the same buffer, CNT and ERR, XTR takes the same fault in both or returns the same
field in both (R91). -/
theorem exec_xtr_agree {s s' : State} (hs : s.Inv) (hu : s'.u = s.u) (hcnt : s'.cnt = s.cnt)
    (herr : s'.err = s.err) (len : LenField) (off : OffField) :
    (∃ c, exec (.xtr len off) s = .next (raise c s) ∧
      exec (.xtr len off) s' = .next (raise c s')) ∨
    (∃ v, exec (.xtr len off) s = .next (respond (okResponse v) s) ∧
      exec (.xtr len off) s' = .next (respond (okResponse v) s')) := by
  by_cases he : s.err = 0
  · have he' := herr.trans he
    by_cases hl : 1 ≤ len.toNat ∧ len.toNat ≤ 32
    · by_cases hb : off.toNat + len.toNat ≤ 6 * s.cnt.toNat
      · obtain ⟨v, hv, -⟩ := memRead_some (hs.readable hb)
        exact .inr ⟨_, (execXtr_of_length he hl).trans (readField_of_some hb hv),
          (execXtr_of_length he' hl).trans
            (readField_of_some (by rw [hcnt]; exact hb) (by rw [hu]; exact hv))⟩
      · exact .inl ⟨_, exec_xtr_of_out he hl (by omega),
          exec_xtr_of_out he' hl (by rw [hcnt]; omega)⟩
    · exact .inl ⟨_, execXtr_of_bad_length he hl, execXtr_of_bad_length he' hl⟩
  · exact .inl ⟨_, exec_of_err he nofun nofun, exec_of_err (herr ▸ he) nofun nofun⟩

/-- Settles O34: the same fault leaves the same ERR, and a success changes no state. -/
theorem xtrDependsOnlyOnTheBuffer : Obligations.XtrDependsOnlyOnTheBuffer := by
  intro s s' len off hs _ hu hcnt herr
  rcases exec_xtr_agree hs hu hcnt herr len off with ⟨c, h, h'⟩ | ⟨v, h, h'⟩
  · have hlatch : (raise c s').err = (raise c s).err := by rw [raise_err, raise_err, herr]
    exact ⟨faultResponse c, _, _, h, h', ⟨rfl, rfl⟩, ⟨rfl, rfl⟩, hlatch, nofun,
      fun _ => raise_takesFault c s⟩
  · exact ⟨okResponse v, _, _, h, h', ⟨rfl, rfl⟩, ⟨rfl, rfl⟩, herr, fun _ => .refl s, nofun⟩

end Sys2Proof.Machine
end

section
/-! PROOFS. The control commands CLR, RDST and WCTL (spec 42_control_commands.md R110 to R115). -/

namespace Sys2Proof.Machine

/-- STATUS is the sum of R112: its 32 bits hold the sum. -/
theorem toNat_statusWord (s : State) : (statusWord s).toNat =
    s.cnt.toNat + 65536 * s.err.toNat + 524288 * s.fseen.toNat + 1048576 * s.fixf.toNat := by
  have hcnt := s.cnt.isLt
  have herr := s.err.isLt
  have hfseen := s.fseen.toNat_le
  have hfixf := s.fixf.toNat_le
  rw [statusWord, BitVec.toNat_ofNat]
  omega

/-- The fields of STATUS stand one after the other, CNT lowest, below eleven zero bits (R18). -/
theorem statusWord_eq_append (s : State) :
    statusWord s = 0#11 ++ BitVec.ofBool s.fixf ++ BitVec.ofBool s.fseen ++ s.err ++ s.cnt := by
  refine BitVec.eq_of_toNat_eq ?_
  simp only [toNat_statusWord, toNat_append_eq_add, BitVec.toNat_ofBool, BitVec.toNat_ofNat]
  omega

/-- Settles O11: the bit fields are the parts of the juxtaposition. -/
theorem rdstReturnsTheStatusWord : Obligations.RdstReturnsTheStatusWord := by
  refine ⟨rfl, fun s => ⟨_, statusWord s, rfl, .refl s, ⟨rfl, rfl⟩, toNat_statusWord s, ?_⟩⟩
  rw [statusWord_eq_append]
  refine ⟨BitVec.extractLsb'_append_eq_right, ?err, ?fseen, ?fixf, ?reserved⟩
  case err =>
    rw [BitVec.extractLsb'_append_eq_of_le (Nat.le_refl 16)]
    exact BitVec.extractLsb'_append_eq_right
  case fseen =>
    simp only [BitVec.getLsbD_append]
    simp
  case fixf =>
    simp only [BitVec.getLsbD_append]
    simp
  case reserved =>
    simp (disch := decide) only [BitVec.extractLsb'_append_eq_of_le]
    exact BitVec.extractLsb'_eq_self

/-- Settles O10: after CLR nothing is left that a second CLR or a reset would clear. -/
theorem clrStartsANewMessage : Obligations.ClrStartsANewMessage := by
  refine ⟨rfl, fun s => ?_⟩
  have hagain : (respond (okResponse 0) (clearMessage s)).SameBlock
      (respond (okResponse 0) (clearMessage (respond (okResponse 0) (clearMessage s)))) :=
    .refl (clearMessage s)
  exact ⟨_, rfl, ⟨rfl, rfl⟩, Memory.read_nil, rfl, rfl, rfl, rfl, rfl, ⟨_, rfl, hagain⟩, rfl⟩

/-- Settles O12, outcome by outcome in the order of the checks. -/
theorem wctlWritesTheModeOnlyBetweenMessages : Obligations.WctlWritesTheModeOnlyBetweenMessages := by
  refine fun s f => ⟨toNat_encode_wctl f, fun he => ?_, fun he hc => ?_, fun he hc => ?_⟩
  · exact ⟨_, exec_of_err he nofun nofun, raise_takesFault .messageAborted s⟩
  · exact ⟨_, execWctl_of_units he hc, raise_takesFault .ctlLocked s⟩
  · exact ⟨_, execWctl_of_empty he hc, ⟨rfl, rfl⟩, rfl, rfl, rfl, rfl, rfl, rfl⟩

end Sys2Proof.Machine
end

section
/-! PROOFS. The table mode affects nothing but the decode of 0x66 (spec 42_control_commands.md R116). -/

namespace Sys2Proof.Machine

/-- XTR does the same under either table. -/
theorem exec_xtr_ignores_fixf {s t : State} {len : LenField} {off : OffField} (b : Bool)
    (h : exec (.xtr len off) s = .next t) :
    exec (.xtr len off) { s with fixf := b } = .next { t with fixf := b } := by
  rcases execXtr_next h with ⟨he, rfl⟩ | ⟨he, hl, rfl⟩ | ⟨he, hl, hout, rfl⟩ | ⟨he, hl, hb, v, hv, rfl⟩
  · exact exec_of_err (s := { s with fixf := b }) he nofun nofun
  · exact execXtr_of_bad_length (s := { s with fixf := b }) he hl
  · exact exec_xtr_of_out (s := { s with fixf := b }) he hl hout
  · exact (execXtr_of_length (s := { s with fixf := b }) he hl).trans (readField_of_some hb hv)

/-- PUSH does the same under two tables that give its character the same decode. -/
theorem exec_push_ignores_fixf {s t : State} {c : CharCode} {b : Bool}
    (ha : alpha s.params c b = alpha s.params c s.fixf) (h : exec (.push c) s = .next t) :
    exec (.push c) { s with fixf := b } = .next { t with fixf := b } := by
  rcases execPush_next h with ⟨he, rfl⟩ | ⟨he, hn, rfl⟩ | ⟨he, ⟨v, hv⟩, hfull, rfl⟩ |
    ⟨he, hroom, v, hv, rfl⟩
  · exact exec_of_err (s := { s with fixf := b }) he nofun nofun
  · exact execPush_of_none (s := { s with fixf := b }) he (ha.trans hn)
  · exact execPush_of_full (s := { s with fixf := b }) he (ha.trans hv) hfull
  · exact execPush_of_some (s := { s with fixf := b }) he (ha.trans hv) hroom

/-- Settles O14: only PUSH reads the mode, and its tables agree on every code but 0x66. -/
theorem tableModeAffectsOnlyTheDecodeOfF : Obligations.TableModeAffectsOnlyTheDecodeOfF := by
  intro i s t b hpush hrdst hwctl h
  cases i with
  | clr => cases h; rfl
  | push c =>
    have hc : c ≠ codeOfF := fun hf => hpush (congrArg Instr.push hf)
    exact exec_push_ignores_fixf (alpha_table_irrelevant s.params hc b s.fixf) h
  | xtr len off => exact exec_xtr_ignores_fixf b h
  | xmt =>
    rw [exec_xmt_eq_exec_xtr] at h ⊢
    exact exec_xtr_ignores_fixf b h
  | rdst => exact absurd rfl hrdst
  | wctl f => exact absurd rfl (hwctl f)

end Sys2Proof.Machine
end

section
/-! PROOFS. The field descriptor table (spec 43_field_descriptors.md R120 to R122): its words, and the read
of one field. -/

namespace Sys2Proof.Machine

/-- Settles O30: a computation on the table, clause by clause. -/
theorem fieldTableGivesItsWords : Obligations.FieldTableGivesItsWords := by
  unfold Obligations.FieldTableGivesItsWords
  refine ⟨?words, ?minCnt, ?order, ?gap, ?contiguous⟩
  case words => decide
  case minCnt => decide
  case order => decide
  case gap => decide
  case contiguous => decide

/-- The sixteen pairs are operands of XTR, of a length it serves, within the 168 bits (R92, R121). -/
theorem tilingPairs_bounds :
    ∀ p ∈ tilingPairs, p.1 < 2 ^ 16 ∧ (1 ≤ p.2 ∧ p.2 ≤ 32) ∧ p.1 + p.2 ≤ 168 := by decide

/-- The fifteen fields are among the sixteen pairs (R121). -/
theorem fieldTable_pairs_subset :
    fieldTable.map (fun d => (d.offset, d.length)) ⊆ tilingPairs := by decide

theorem FieldDescriptor.pair_mem {d : FieldDescriptor} (hd : d ∈ fieldTable) :
    (d.offset, d.length) ∈ tilingPairs :=
  fieldTable_pairs_subset (List.mem_map_of_mem hd)

/-- The smallest CNT of a field is that of a buffer which ends no earlier than the field (R120). -/
theorem FieldDescriptor.minCnt_le_iff (d : FieldDescriptor) (n : Nat) :
    d.minCnt ≤ n ↔ d.offset + d.length ≤ 6 * n := by
  unfold FieldDescriptor.minCnt
  omega

/-- In a fault-free message the XTR of one of the sixteen pairs is the bounds check and the read. -/
theorem exec_xtrCommand {s : State} {p : Nat × Nat} (he : s.err = 0) (hp : p ∈ tilingPairs) :
    exec (xtrCommand p.1 p.2) s = readField p.1 p.2 s := by
  obtain ⟨hoff, hlen, -⟩ := tilingPairs_bounds p hp
  have hoff' : (BitVec.ofNat 16 p.1).toNat = p.1 := Nat.mod_eq_of_lt hoff
  have hlen' : (BitVec.ofNat 6 p.2).toNat = p.2 := Nat.mod_eq_of_lt (by omega)
  have hxtr : exec (xtrCommand p.1 p.2) s = _ := execXtr_of_length he (by rwa [hlen'])
  rwa [hoff', hlen'] at hxtr

/-- Settles O31: the smallest CNT is the bounds check of the field's XTR. -/
theorem fieldReadNeedsItsUnits : Obligations.FieldReadNeedsItsUnits := by
  intro s d hs he hd
  have hexec : exec d.command s = readField d.offset d.length s := exec_xtrCommand he (d.pair_mem hd)
  refine ⟨fun hmin => ?_, fun hless => ?_⟩
  · have hb := (d.minCnt_le_iff _).mp hmin
    obtain ⟨v, hv, hlt⟩ := memRead_some (hs.readable hb)
    exact ⟨_, v, hexec.trans (readField_of_some hb hv), respond_readOk v s, hv, hlt⟩
  · have hout := (d.minCnt_le_iff _).not.mp (Nat.not_le_of_lt hless)
    exact ⟨_, hexec.trans (readField_of_out (by omega)), raise_takesFault .outOfBounds s⟩

end Sys2Proof.Machine
end

section
/-! PROOFS. Runs of field reads (spec 43_field_descriptors.md R121; 20_memory.md R41): they return the
fields and change nothing, and contiguous fields concatenate to one read. -/

namespace Sys2Proof.Machine

/-- The read of a field inside the buffer, whatever the host presents after it. -/
theorem run_xtrCommand {k : Nat} {s : State} {is : List Instr} {p : Nat × Nat} {v : Nat}
    (he : s.err = 0) (hp : p ∈ tilingPairs) (hb : p.1 + p.2 ≤ 6 * s.cnt.toNat)
    (hv : memRead s.u p.1 p.2 = some v) :
    run (k + 1) (s.given (present (xtrCommand p.1 p.2 :: is))) =
      run k ((respond (okResponse (BitVec.ofNat 32 v)) s).given (present is)) :=
  run_of_exec (s := s.given _) rfl
    ((exec_xtrCommand (s := s.given (present is)) he hp).trans
      (readField_of_some (s := s.given (present is)) hb hv))

/-- On a fault-free buffer that holds 28 units or more, the XTR commands of any of the sixteen pairs all
succeed, change nothing, and return their fields in the order presented. -/
theorem run_xtrCommands {s : State} {ps : List (Nat × Nat)} (he : s.err = 0)
    (hc : 28 ≤ s.cnt.toNat) (hcells : ∀ j, j < s.cnt.toNat → (Memory.read s.u j).isSome)
    (hps : ps ⊆ tilingPairs) :
    ∃ (t : State) (vs : List Nat),
      run ps.length (s.given (present (ps.map fun p => xtrCommand p.1 p.2))) = .next t ∧
      s.SameBlock t ∧ List.Forall₂ (fun p v => memRead s.u p.1 p.2 = some v) ps vs ∧
      t.responses = s.responses ++ vs.map fun v => okResponse (BitVec.ofNat 32 v) := by
  induction ps generalizing s with
  | nil => exact ⟨_, [], rfl, .refl s, .nil, (List.append_nil _).symm⟩
  | cons p ps ih =>
    obtain ⟨hp, hps'⟩ := List.cons_subset.mp hps
    obtain ⟨-, -, hend⟩ := tilingPairs_bounds p hp
    have hb : p.1 + p.2 ≤ 6 * s.cnt.toNat := by omega
    obtain ⟨v, hv⟩ := memRead_exists hcells hb
    obtain ⟨t, vs, ht, hsame, hvs, hresp⟩ :=
      ih (s := respond (okResponse (BitVec.ofNat 32 v)) s) he hc hcells hps'
    refine ⟨t, v :: vs, (run_xtrCommand he hp hb hv).trans ht, hsame, .cons hv hvs, ?_⟩
    rw [hresp, respond_responses, List.append_assoc]
    rfl

/-- Fields read one after the other, each from where the one before it ends, extend a read from bit 0
(R41). -/
theorem memRead_of_chain {m : Memory} {p : Nat × Nat} {ps : List (Nat × Nat)} {vs : List Nat} {x : Nat}
    (hvs : List.Forall₂ (fun p v => memRead m p.1 p.2 = some v) ps vs)
    (hchain : (p :: ps).IsChain fun p q => p.1 + p.2 = q.1) (hx : memRead m 0 (p.1 + p.2) = some x) :
    memRead m 0 (p.1 + p.2 + (ps.map Prod.snd).sum) =
      some ((ps.zip vs).foldl (fun x q => x * 2 ^ q.1.2 + q.2) x) := by
  induction hvs generalizing p x with
  | nil => exact hx
  | @cons q v ps vs hv _ ih =>
    obtain ⟨hpq, hchain'⟩ := List.isChain_cons_cons.mp hchain
    have hnext : memRead m 0 (q.1 + q.2) = some (x * 2 ^ q.2 + v) := by
      rw [memRead_add, ← hpq, hx, Nat.zero_add, hpq, hv]
      rfl
    rw [List.map_cons, List.sum_cons, ← Nat.add_assoc, hpq]
    exact ih hchain' hnext

/-- Settles O29: the sixteen pairs are a chain of fields from bit 0 to bit 167. -/
theorem fieldTableReadsReconstructTheStream : Obligations.FieldTableReadsReconstructTheStream := by
  intro s hs he hc
  have hcnt : s.cnt.toNat = 28 := by rw [hc]; rfl
  have hcells : ∀ j, j < s.cnt.toNat → (Memory.read s.u j).isSome := fun j => hs.isSome_read
  obtain ⟨t, vs, ht, hsame, hvs, hresp⟩ :=
    run_xtrCommands he hcnt.ge hcells (List.Subset.refl tilingPairs)
  refine ⟨t, vs, ht, hsame, hvs.length_eq.symm, hresp,
    fun q hq => memRead_lt (List.forall₂_zip hvs hq), ?_⟩
  have hchain : ((0, 0) :: tilingPairs).IsChain fun p q => p.1 + p.2 = q.1 := by simp [tilingPairs]
  have hread := memRead_of_chain hvs hchain (memRead_zero s.u 0)
  rw [show 0 + 0 + (tilingPairs.map Prod.snd).sum = 6 * 28 by decide] at hread
  rw [hcnt] at hcells
  exact (streamValue_eq_memRead hcells).trans hread

end Sys2Proof.Machine
end

section
/-! PROOFS. The client's decode pass (spec 43_field_descriptors.md R123). -/

namespace Sys2Proof.Machine

/-- Every decoded cell below CNT holds a value. -/
theorem State.Decoded.isSome_read {s t : State} {cs : List CharCode} (h : s.Decoded cs t)
    (ha : ∀ c ∈ cs, (alpha s.params c s.fixf).isSome) {j : Nat} (hj : j < t.cnt.toNat) :
    (Memory.read t.u j).isSome := by
  rw [h.cnt] at hj
  rw [h.units, List.getElem?_eq_getElem hj]
  exact ha _ (List.getElem_mem hj)

theorem f_of_mem_unitResponses {p : Params} {fixf : Bool} {cs : List CharCode} {r : Response}
    (h : r ∈ unitResponses p fixf cs) : r.f = false := by
  obtain ⟨c, -, hc⟩ := List.mem_filterMap.mp h
  obtain ⟨v, -, rfl⟩ := Option.map_eq_some_iff.mp hc
  rfl

/-- The type filter looks at the value of the last response (R123). -/
theorem passGoesOn_concat_iff {rs : List Response} {v : Word} (h : ∀ r ∈ rs, r.f = false) :
    passGoesOn (rs ++ [okResponse v]) = true ↔ 1 ≤ v.toNat ∧ v.toNat ≤ 3 := by
  have hall : (rs ++ [okResponse v]).all (fun r => !r.f) = true := by
    simpa [List.all_eq_true, okResponse] using h
  have hval : v = 1 ∨ v = 2 ∨ v = 3 ↔ 1 ≤ v.toNat ∧ v.toNat ≤ 3 := by bv_omega
  rw [passGoesOn, hall, List.getLast?_concat, ← hval]
  simp [okResponse, or_assoc]

/-- `DECODE` and `XMT` of a payload of alphabet characters that the buffer has room for: the buffer holds
the decode of the payload, and XMT returns its first unit. -/
theorem run_passHead {s : State} {c : CharCode} {cs : List CharCode} {v : Unit6}
    (hp : s.params.wf = true) (hc : (c :: cs).length ≤ s.params.cap)
    (ha : ∀ d ∈ c :: cs, (alpha s.params d s.fixf).isSome) (hv : alpha s.params c s.fixf = some v) :
    ∃ r, s.Decoded (c :: cs) r ∧
      run ((c :: cs).length + 2) (s.given (present (passHead (c :: cs)))) =
        .next (respond (okResponse (BitVec.ofNat 32 v.toNat)) (r.given [])) := by
  obtain ⟨r, hr, hdec⟩ := run_push_decoded (is := [.xmt]) hp (.clr s) ha (by simpa using hc)
  have hunit : Memory.read r.u 0 = some v := by rw [hdec.units]; exact hv
  have hone : 0 + 6 ≤ 6 * r.cnt.toNat := by rw [hdec.cnt, List.nil_append, List.length_cons]; omega
  have hxmt : exec .xmt (r.given []) = .next _ :=
    (execXmt_of_no_err (s := r.given []) hdec.err).trans
      (readField_of_some (s := r.given []) hone (memRead_unit hunit))
  have hlast : run 1 (r.given (present [.xmt])) = .next _ := run_of_exec rfl hxmt
  exact ⟨r, hdec, run_clr.trans (run_append hr hlast)⟩

/-- Settles O32: after `DECODE` and `XMT` the buffer holds the payload, and the fifteen fields are among
the sixteen pairs. -/
theorem decodePassReturnsEveryField : Obligations.DecodePassReturnsEveryField := by
  intro s payload hp h28 hcap ha
  obtain ⟨c, cs, rfl⟩ := List.exists_cons_of_length_pos (show 0 < payload.length by omega)
  obtain ⟨v, hv⟩ := Option.isSome_iff_exists.mp (ha c List.mem_cons_self)
  obtain ⟨r, hdec, hhead⟩ := run_passHead hp hcap ha hv
  let t := respond (okResponse (BitVec.ofNat 32 v.toNat)) (r.given [])
  obtain ⟨t', vs, ht', hsame, hvs, hresp⟩ :=
    run_xtrCommands (s := t) hdec.err (hdec.cnt ▸ h28) (fun j => hdec.isSome_read ha)
      fieldTable_pairs_subset
  rw [List.forall₂_map_left_iff] at hvs
  refine ⟨t, t', vs, hhead, ?filter, ht', hsame, hdec.cnt, hdec.err, hdec.units,
    hvs.length_eq.symm, hresp, fun q hq => ?fields⟩
  case filter =>
    have hdrop : t.responses.drop s.responses.length =
        (okResponse 0 :: unitResponses s.params s.fixf (c :: cs)) ++
          [okResponse (BitVec.ofNat 32 v.toNat)] := by
      rw [respond_responses, given_responses, hdec.responses, List.append_assoc, List.drop_left]
    have hval : (BitVec.ofNat 32 v.toNat).toNat = v.toNat := Nat.mod_eq_of_lt (by omega)
    rw [hdrop, passGoesOn_concat_iff (List.forall_mem_cons.mpr ⟨rfl, fun _ => f_of_mem_unitResponses⟩),
      hval]
    simp [hv]
  case fields =>
    have hread : memRead r.u q.1.offset q.1.length = some q.2 := List.forall₂_zip hvs hq
    exact ⟨hread, memRead_lt hread⟩

end Sys2Proof.Machine
end

section
/-! PROOFS. Faults and the aborted state (spec 60_exceptions.md R153, R154, R156). -/

namespace Sys2Proof.Machine

/-- Settles O37: a step on a word answers with a fault, which is `raise`, or with a success. -/
theorem aFaultChangesNothingButErr : Obligations.AFaultChangesNothingButErr := by
  intro s t w rest hi h
  rcases step_answers hi h with ⟨c, -, rfl⟩ | ⟨v, hv, herr⟩
  · exact ⟨faultResponse c, ⟨rfl, rfl⟩,
      fun _ => ⟨c.code_ne_zero, rfl, raise_takesFault c (s.given rest)⟩, nofun⟩
  · exact ⟨okResponse v, hv, nofun, fun _ => ⟨rfl, herr.imp_right And.left⟩⟩

/-- In the aborted state a fault leaves the block as it was (R157). -/
theorem raise_sameBlock_of_err {s : State} (c : BlockFault) (he : s.err ≠ 0) :
    s.SameBlock (raise c s) := by
  rw [raise_of_err c he]
  exact .refl s

/-- In the aborted state a word that is not CLR is responded to, and nothing else happens (R154). -/
theorem step_respond_of_err {s : State} {w : Word} {rest : List HostEvent} (he : s.err ≠ 0)
    (hi : s.inputs = .command w :: rest) (hw : decode w ≠ .ok .clr) :
    ∃ r, step s = .next (respond r (s.given rest)) := by
  have hraise (c : BlockFault) : raise c (s.given rest) = respond (faultResponse c) (s.given rest) :=
    raise_of_err c he
  cases hd : decode w with
  | error r => exact ⟨_, (step_illegal hi hd).trans (congrArg _ (hraise .illegalCommand))⟩
  | ok i =>
    by_cases hr : i = .rdst
    · subst hr
      exact ⟨_, step_legal hi hd⟩
    · have hc : i ≠ .clr := fun hc => hw (hc ▸ hd)
      have hexec : exec i (s.given rest) = _ := exec_of_err he hc hr
      exact ⟨_, (step_legal hi hd).trans (hexec.trans (congrArg _ (hraise .messageAborted)))⟩

/-- Settles O39, by induction on the words: after each the block is the same, so still aborted. -/
theorem onlyClrAndResetLeaveTheAbortedState : Obligations.OnlyClrAndResetLeaveTheAbortedState := by
  intro s ws he hws
  induction ws generalizing s with
  | nil => exact ⟨_, rfl, .refl s, rfl⟩
  | cons w ws ih =>
    obtain ⟨r, hstep⟩ := step_respond_of_err (s := s.given ((w :: ws).map .command)) he rfl
      (hws w List.mem_cons_self)
    obtain ⟨t, hrun, hsame, hlen⟩ := ih (respond r s) he fun x hx => hws x (List.mem_cons_of_mem _ hx)
    refine ⟨t, (run_of_step hstep).trans hrun, hsame, ?_⟩
    rw [hlen, respond_responses, List.length_append, List.length_singleton, List.length_cons]
    omega

/-- Settles O38: the four message-scoped commands and the illegal words raise a fault, which leaves an
aborted block as it was. -/
theorem abortedStateGatesTheMessageCommands : Obligations.AbortedStateGatesTheMessageCommands := by
  refine fun s he => ⟨fun i hc hr => ?gated, ?rdst, ⟨_, rfl, rfl, rfl, rfl⟩,
    fun w r rest hd hi => ?illegal⟩
  case gated =>
    exact ⟨_, exec_of_err he hc hr, raise_sameBlock_of_err .messageAborted he, rfl, rfl⟩
  case rdst =>
    obtain ⟨t, v, hexec, hsame, hret, -, -, herr, -⟩ := rdstReturnsTheStatusWord.2 s
    exact ⟨t, v, hexec, hsame, hret, herr⟩
  case illegal =>
    exact ⟨_, step_illegal hi hd, raise_sameBlock_of_err (s := s.given rest) .illegalCommand he,
      rfl, rfl⟩

end Sys2Proof.Machine
end

section
/-! PROOFS. The model never stops (spec 60_exceptions.md R161) and returns one response for each command
word (20_memory.md R39). -/

namespace Sys2Proof.Machine

theorem exec_xtr_total {s : State} (hs : s.Inv) (len : LenField) (off : OffField) :
    ∃ t, exec (.xtr len off) s = .next t := by
  rcases exec_xtr_agree hs rfl rfl rfl len off with ⟨c, h, -⟩ | ⟨v, h, -⟩
  · exact ⟨_, h⟩
  · exact ⟨_, h⟩

/-- Under the invariant PUSH finds the buffer full or the cell CNT inside the chip (R14). -/
theorem execPush_total {s : State} (hs : s.Inv) (he : s.err = 0) (c : CharCode) :
    ∃ t, execPush c s = .next t := by
  cases ha : alpha s.params c s.fixf with
  | none => exact ⟨_, execPush_of_none he ha⟩
  | some v =>
    rcases hs.cnt_le_cap.eq_or_lt with hfull | hroom
    · exact ⟨_, execPush_of_full he ha hfull⟩
    · exact ⟨_, execPush_of_some he ha hroom⟩

/-- R161: from a state that meets the invariant every command answers a next state. -/
theorem exec_total {s : State} (hs : s.Inv) (i : Instr) : ∃ t, exec i s = .next t := by
  cases i with
  | clr => exact ⟨_, rfl⟩
  | rdst => exact ⟨_, rfl⟩
  | xtr len off => exact exec_xtr_total hs len off
  | xmt =>
    rw [exec_xmt_eq_exec_xtr]
    exact exec_xtr_total hs 6 0
  | push c =>
    by_cases he : s.err = 0
    · exact execPush_total hs he c
    · exact ⟨_, exec_of_err he nofun nofun⟩
  | wctl f =>
    by_cases he : s.err = 0
    · by_cases hc : s.cnt = 0
      · exact ⟨_, execWctl_of_empty he hc⟩
      · exact ⟨_, execWctl_of_units he hc⟩
    · exact ⟨_, exec_of_err he nofun nofun⟩

/-- A step on a command word from a state that meets the invariant takes the word and returns one response
(R39, R161). -/
theorem step_command_total {s : State} {w : Word} {rest : List HostEvent} (hs : s.Inv)
    (hi : s.inputs = .command w :: rest) :
    ∃ t r, step s = .next t ∧ State.Returns (s.given rest) t r := by
  cases hd : decode w with
  | error e => exact ⟨_, _, step_illegal hi hd, rfl, rfl⟩
  | ok i =>
    obtain ⟨t, ht⟩ := exec_total (hs.given rest) i
    obtain ⟨-, -, r, hr⟩ := exec_port ht
    exact ⟨t, r, (step_legal hi hd).trans ht, hr⟩

/-- A step on an event from a state that meets the invariant takes the event, keeps the invariant, and
returns a response exactly if the event is a command word. -/
theorem step_event_of_inv {s : State} {e : HostEvent} {rest : List HostEvent} (hs : s.Inv)
    (hi : s.inputs = e :: rest) :
    ∃ (t : State) (rs : List Response), step s = .next t ∧ t.Inv ∧ t.inputs = rest ∧
      t.responses = s.responses ++ rs ∧ rs.length = if e ≠ .reset then 1 else 0 := by
  cases e with
  | reset =>
    have hstep := step_reset hi
    exact ⟨_, [], hstep, everyStepKeepsTheInvariant _ _ hs hstep, rfl, (List.append_nil _).symm, rfl⟩
  | command w =>
    obtain ⟨t, r, hstep, hresp, hinputs⟩ := step_command_total hs hi
    exact ⟨t, [r], hstep, everyStepKeepsTheInvariant _ _ hs hstep, hinputs, hresp, rfl⟩

/-- A run over all that the host has presented, from a state that meets the invariant. -/
theorem run_events_of_inv {s : State} {events : List HostEvent} (hs : s.Inv)
    (hi : s.inputs = events) :
    ∃ (t : State) (rs : List Response), run events.length s = .next t ∧ t.Inv ∧ t.inputs = [] ∧
      t.responses = s.responses ++ rs ∧ rs.length = events.countP fun e => decide (e ≠ .reset) := by
  induction events generalizing s with
  | nil => exact ⟨s, [], rfl, hs, hi, (List.append_nil _).symm, rfl⟩
  | cons e rest ih =>
    obtain ⟨u, r, hstep, hu, hrest, hresp, hlen⟩ := step_event_of_inv hs hi
    obtain ⟨t, rs, hrun, ht, hempty, hresps, hcount⟩ := ih hu hrest
    refine ⟨t, r ++ rs, (run_of_step hstep).trans hrun, ht, hempty, ?_, ?_⟩
    · rw [hresps, hresp, List.append_assoc]
    · rw [List.length_append, hlen, hcount, List.countP_cons, Nat.add_comm]
      simp only [decide_eq_true_eq]

/-- Settles O46: the run over the presented events, whatever the queue was before. -/
theorem everyCommandReturnsOneResponse : Obligations.EveryCommandReturnsOneResponse :=
  fun _ events hs => run_events_of_inv (hs.given events) rfl

end Sys2Proof.Machine
end

section
/-! PROOFS. Several instances (spec 60_exceptions.md R159; 20_memory.md R44). -/

namespace Sys2Proof.Machine

/-- A move of the k-th of several instances replaces its state by the step of that state alone; where there
is no k-th state, replacing it does nothing. -/
theorem stepInstance_eq_next_iff {k : Nat} {system system' : List State} :
    stepInstance k system = .next system' ↔
      ∃ t, system' = system.set k t ∧ ∀ s, system[k]? = some s → step s = .next t := by
  rw [stepInstance]
  cases hk : system[k]? with
  | none =>
    have hset (t : State) : system.set k t = system :=
      List.set_eq_of_length_le (List.getElem?_eq_none_iff.mp hk)
    refine ⟨fun h => ?_, fun ⟨t, ht, _⟩ => ?_⟩
    · cases h
      exact ⟨State.reset, (hset _).symm, nofun⟩
    · rw [ht, hset]
  | some s =>
    cases hs : step s <;> simp [hs, eq_comm]

/-- Settles O47: moves of two instances replace different states of the system. -/
theorem instancesAreIndependent : Obligations.InstancesAreIndependent := by
  refine ⟨fun j system system' h => ?alone, fun j k system a b hjk ha hb => ?commute⟩
  case alone =>
    obtain ⟨t, rfl, ht⟩ := stepInstance_eq_next_iff.mp h
    refine ⟨List.length_set, fun k hk => List.getElem?_set_ne hk.symm, fun s hs => ⟨t, ht s hs, ?_⟩⟩
    exact List.getElem?_set_self (List.getElem?_eq_some_iff.mp hs).1
  case commute =>
    obtain ⟨t, rfl, ht⟩ := stepInstance_eq_next_iff.mp ha
    obtain ⟨u, rfl, hu⟩ := stepInstance_eq_next_iff.mp hb
    refine ⟨(system.set j t).set k u, stepInstance_eq_next_iff.mpr ⟨u, rfl, ?_⟩,
      stepInstance_eq_next_iff.mpr ⟨t, List.set_comm t u hjk, ?_⟩⟩
    · rwa [List.getElem?_set_ne hjk]
    · rwa [List.getElem?_set_ne hjk.symm]

end Sys2Proof.Machine
end

section
/-! PROOFS. The reset event and the reset state (spec 70_reset_and_hazards.md R170, R171, R173). -/

namespace Sys2Proof.Machine

/-- STATUS at reset: FIXF is the one field that can be other than 0 (R18, R171). -/
theorem statusWord_resetWith (p : Params) :
    statusWord (State.resetWith p) = BitVec.ofNat 32 (if p.fixfReset then 0x00100000 else 0x00000000) := by
  cases h : p.fixfReset <;> simp [statusWord, State.resetWith, h]

/-- At reset no bit is inside the address map: a field of at least one bit runs past it (R37). -/
theorem resetWith_out (p : Params) {off len : Nat} (h : 1 ≤ len) :
    6 * (State.resetWith p).cnt.toNat < off + len := by
  have hcnt : (State.resetWith p).cnt.toNat = 0 := rfl
  omega

/-- At reset a legal chip has room (R5). -/
theorem resetWith_room {p : Params} (hp : p.wf = true) :
    (State.resetWith p).cnt.toNat < (State.resetWith p).params.cap := by
  obtain ⟨hcap, -⟩ := (params_wf_iff p).mp hp
  exact Nat.zero_lt_of_lt hcap

/-- Settles O9: at reset no check of WCTL or of a PUSH from the alphabet fails, and the bounds check of every
read does. -/
theorem resetStateIsEmptyAndFaultFree : Obligations.ResetStateIsEmptyAndFaultFree := by
  refine ⟨rfl, rfl, fun s rest h => ⟨_, step_reset h, rfl, rfl, rfl, rfl, rfl, rfl⟩, fun p hp =>
    ⟨_, rfl, Memory.read_nil, rfl, rfl, rfl, rfl, ?rdst, fun len off h1 h32 => ?xtr, ?xmt, fun f => ?wctl,
      fun c v ha => ?push⟩⟩
  case rdst =>
    refine ⟨_, rfl, .refl _, ?_, rfl⟩
    rw [respond_responses, statusWord_resetWith, okResponse]
  case xtr => exact ⟨_, exec_xtr_of_out rfl ⟨h1, h32⟩ (resetWith_out p h1), raise_takesFault .outOfBounds _⟩
  case xmt => exact ⟨_, exec_xmt_of_out rfl (resetWith_out p (by decide)), raise_takesFault .outOfBounds _⟩
  case wctl => exact ⟨_, execWctl_of_empty rfl rfl, ⟨rfl, rfl⟩, rfl⟩
  case push => exact ⟨_, execPush_of_some rfl ha (resetWith_room hp), ⟨rfl, rfl⟩, rfl⟩

/-- Settles O8: the step takes the reset, which says of each piece what becomes of it. -/
theorem resetEventPutsEveryPieceAtItsResetValue : Obligations.ResetEventPutsEveryPieceAtItsResetValue :=
  fun _ _ h => ⟨_, step_reset h, Memory.read_nil, rfl, rfl, rfl, rfl, rfl, rfl, rfl, rfl⟩

end Sys2Proof.Machine
end
